-- ==== Sys2Proof/Word.lean ====
section
/-! DEFINITION. The words of the core: bytes, byte sequences of a fixed length, Keccak lanes
(spec/00_scope.md R9, R10). -/

namespace Sys2Proof

/-- A byte; bit 7 is its most significant bit (00_scope R9). A character is one byte (30_encoding R70). -/
abbrev Byte := BitVec 8

/-- A byte sequence of fixed length; index 0 is the first byte (00_scope R10). -/
abbrev Bytes (n : Nat) := Vector Byte n

/-- A 64-bit unsigned Keccak lane (40_checksum R102). -/
abbrev Lane := BitVec 64

/-- The 25 lanes of the Keccak state; lane `A[x][y]` stands at index `x + 5y` (40_checksum R102). -/
abbrev Lanes := Vector Lane 25

end Sys2Proof
end

