-- ==== Sys2Proof/Syntax.lean ====
section
/-! DEFINITION. The syntax of the core: the 43 rows of spec/opcode_table.json (`Instr`), the encoded items
they are read from (`Item`), the error kinds, and the steps of the machine that no row selects: the HOST's
actions and the order of turns (spec/30_encoding.md, spec/45_operations.md). -/

namespace Sys2Proof

/-- The four formats of 30_encoding R84. Rows of different formats decode different fields and are never
matched against one another. -/
inductive Format where
  /-- the 1-bit command port `OP` (30_encoding R76) -/
  | cmd
  /-- a character of a base32 text (30_encoding R74) -/
  | b32sym
  /-- the separator byte of an identifier (30_encoding R71) -/
  | idsep
  /-- the 3-bit status field `ERR` (30_encoding R77) -/
  | errcode
  deriving DecidableEq, Repr

/-- An encoded item: a format and its bits, right-aligned in a byte. -/
structure Item where
  format : Format
  bits   : Byte
  deriving DecidableEq, Repr

/-- Why the decoder rejects an encoded item. -/
inductive Reject where
  /-- the bits do not fit the format's width -/
  | tooWide
  /-- the bits are no row of the format (for a character: outside the alphabet, 30_encoding R74) -/
  | noSuchRow
  deriving DecidableEq, Repr

/-- One constructor per row of spec/opcode_table.json. No row has an operand in its bits: the operands of a
command are whole input registers (30_encoding R76). -/
inductive Instr where
  /-- CMD 0 (45_operations R190) -/
  | encode
  /-- CMD 1 (45_operations R191) -/
  | decode
  | symA
  | symB
  | symC
  | symD
  | symE
  | symF
  | symG
  | symH
  | symI
  | symJ
  | symK
  | symL
  | symM
  | symN
  | symO
  | symP
  | symQ
  | symR
  | symS
  | symT
  | symU
  | symV
  | symW
  | symX
  | symY
  | symZ
  | sym2
  | sym3
  | sym4
  | sym5
  | sym6
  | sym7
  /-- IDSEP 0x5F (30_encoding R71) -/
  | sep
  | errOK
  | errInvalidPrefixLength
  | errInvalidInputLength
  | errInvalidIdentifierLength
  | errInvalidDataSegmentCount
  | errInvalidDataSegmentLength
  | errInvalidEncoding
  | errChecksumMismatch
  deriving DecidableEq, Repr

/-- The error kinds (60_exceptions R210), a closed enumeration; only InvalidEncoding carries a datum, the
offending index in the 56-character payload string (30_encoding R77). -/
inductive ErrKind where
  | invalidPrefixLength
  | invalidInputLength
  | invalidIdentifierLength
  | invalidDataSegmentCount
  | invalidDataSegmentLength
  | invalidEncoding (pos : Fin 56)
  | checksumMismatch
  deriving DecidableEq, Repr

/-- HOST_WRITE (45_operations R194). A length register is given the true length of the HOST's sequence
(10_state R22); a data register is given one or more bytes: the positions that hold `some` byte. -/
inductive HostWrite where
  | op (v : BitVec 1)
  | pfxLen (n : Nat)
  | pfx (bytes : Vector (Option Byte) 3)
  | keyLen (n : Nat)
  | keyIn (bytes : Vector (Option Byte) 32)
  | idLen (n : Nat)
  | idIn (bytes : Vector (Option Byte) 66)
  /-- one character of ID_IN: the form in which a B32SYM or IDSEP row reaches the core (log 6, DESIGN CHOICE) -/
  | idChar (i : Fin 66) (c : Byte)
  deriving DecidableEq, Repr

/-- The ports the HOST can read (45_operations R195). -/
inductive Port where
  | busy | done | err | errPos | idOut | keyOut
  deriving DecidableEq, Repr

/-- The actions of the HOST (10_state R32). -/
inductive HostAction where
  | write (w : HostWrite)
  | start
  | read (p : Port)
  /-- step 5 of 45_operations R196 after `HOST_READ ERR`: the read that the value of ERR calls for, for the
  command (0 ENCODE, 1 DECODE) that the HOST issued -/
  | readResult (op : BitVec 1)
  | reset
  deriving DecidableEq, Repr

/-- Whose turn it is (10_state R20). The CORE's only step is COMPLETE (45_operations R193). -/
inductive Turn where
  | core
  | host (a : HostAction)
  deriving DecidableEq, Repr

/-- One line of the transaction notation (30_encoding R83). -/
inductive Line where
  | encode (pfx key : List Byte)
  | decode (identifier : List Byte)
  | reset
  deriving DecidableEq, Repr

end Sys2Proof
end

