-- ==== Sys2Proof/WellFormed.lean ====
section
/-! DEFINITION. When an encoded item and a HOST_WRITE are well formed (spec/30_encoding.md R84,
spec/45_operations.md R194). An instruction has no operand, so every `Instr` is well formed; its encoding is
(`Laws/PerInstr.lean`). -/

namespace Sys2Proof

/-- The width in bits of a format (30_encoding R84). -/
def Format.width : Format → Nat
  | .cmd => 1
  | .b32sym => 8
  | .idsep => 8
  | .errcode => 3

/-- An item's bits fit its format. -/
def Item.wf (f : Item) : Bool := decide (f.bits.toNat < 2 ^ f.format.width)

/-- A HOST_WRITE of a data register writes one or more bytes (45_operations R194). -/
def HostWrite.wf : HostWrite → Bool
  | .pfx m => m.toList.any Option.isSome
  | .keyIn m => m.toList.any Option.isSome
  | .idIn m => m.toList.any Option.isSome
  | .op _ | .pfxLen _ | .keyLen _ | .idLen _ | .idChar _ _ => true

/-- An action of the HOST is well formed when the register write it makes is. -/
def HostAction.wf : HostAction → Bool
  | .write w => w.wf
  | .start | .read _ | .readResult _ | .reset => true

/-- A turn is well formed when the HOST's action is. -/
def Turn.wf : Turn → Bool
  | .core => true
  | .host a => a.wf

end Sys2Proof
end

