-- ==== Sys2Proof/Decode.lean ====
section
/-! DEFINITION. The decoder of the encoded items, from spec/opcode_table.json's rows, and after it the encoder
(spec/30_encoding.md R71, R74, R76, R77, R84). -/

namespace Sys2Proof

/-- A row of spec/opcode_table.json: the item matches when it has the row's format and its masked bits are
the row's `match` value. -/
structure Row where
  instr   : Instr
  format  : Format
  mask    : Byte
  pattern : Byte
  deriving DecidableEq, Repr

/-- Format CMD (30_encoding R76). -/
def cmdRows : List Row :=
  [⟨.encode, .cmd, 0x1#8, 0x0#8⟩,
   ⟨.decode, .cmd, 0x1#8, 0x1#8⟩]

/-- Format B32SYM, values 0 to 12 (30_encoding R74). -/
def symRowsAtoM : List Row :=
  [⟨.symA, .b32sym, 0xFF#8, 0x41#8⟩,
   ⟨.symB, .b32sym, 0xFF#8, 0x42#8⟩,
   ⟨.symC, .b32sym, 0xFF#8, 0x43#8⟩,
   ⟨.symD, .b32sym, 0xFF#8, 0x44#8⟩,
   ⟨.symE, .b32sym, 0xFF#8, 0x45#8⟩,
   ⟨.symF, .b32sym, 0xFF#8, 0x46#8⟩,
   ⟨.symG, .b32sym, 0xFF#8, 0x47#8⟩,
   ⟨.symH, .b32sym, 0xFF#8, 0x48#8⟩,
   ⟨.symI, .b32sym, 0xFF#8, 0x49#8⟩,
   ⟨.symJ, .b32sym, 0xFF#8, 0x4A#8⟩,
   ⟨.symK, .b32sym, 0xFF#8, 0x4B#8⟩,
   ⟨.symL, .b32sym, 0xFF#8, 0x4C#8⟩,
   ⟨.symM, .b32sym, 0xFF#8, 0x4D#8⟩]

/-- Format B32SYM, values 13 to 25 (30_encoding R74). -/
def symRowsNtoZ : List Row :=
  [⟨.symN, .b32sym, 0xFF#8, 0x4E#8⟩,
   ⟨.symO, .b32sym, 0xFF#8, 0x4F#8⟩,
   ⟨.symP, .b32sym, 0xFF#8, 0x50#8⟩,
   ⟨.symQ, .b32sym, 0xFF#8, 0x51#8⟩,
   ⟨.symR, .b32sym, 0xFF#8, 0x52#8⟩,
   ⟨.symS, .b32sym, 0xFF#8, 0x53#8⟩,
   ⟨.symT, .b32sym, 0xFF#8, 0x54#8⟩,
   ⟨.symU, .b32sym, 0xFF#8, 0x55#8⟩,
   ⟨.symV, .b32sym, 0xFF#8, 0x56#8⟩,
   ⟨.symW, .b32sym, 0xFF#8, 0x57#8⟩,
   ⟨.symX, .b32sym, 0xFF#8, 0x58#8⟩,
   ⟨.symY, .b32sym, 0xFF#8, 0x59#8⟩,
   ⟨.symZ, .b32sym, 0xFF#8, 0x5A#8⟩]

/-- Format B32SYM, values 26 to 31 (30_encoding R74). -/
def symRows2to7 : List Row :=
  [⟨.sym2, .b32sym, 0xFF#8, 0x32#8⟩,
   ⟨.sym3, .b32sym, 0xFF#8, 0x33#8⟩,
   ⟨.sym4, .b32sym, 0xFF#8, 0x34#8⟩,
   ⟨.sym5, .b32sym, 0xFF#8, 0x35#8⟩,
   ⟨.sym6, .b32sym, 0xFF#8, 0x36#8⟩,
   ⟨.sym7, .b32sym, 0xFF#8, 0x37#8⟩]

/-- Format IDSEP (30_encoding R71). -/
def sepRows : List Row :=
  [⟨.sep, .idsep, 0xFF#8, 0x5F#8⟩]

/-- Format ERRCODE (30_encoding R77). -/
def errRows : List Row :=
  [⟨.errOK, .errcode, 0x7#8, 0x0#8⟩,
   ⟨.errInvalidPrefixLength, .errcode, 0x7#8, 0x1#8⟩,
   ⟨.errInvalidInputLength, .errcode, 0x7#8, 0x2#8⟩,
   ⟨.errInvalidIdentifierLength, .errcode, 0x7#8, 0x3#8⟩,
   ⟨.errInvalidDataSegmentCount, .errcode, 0x7#8, 0x4#8⟩,
   ⟨.errInvalidDataSegmentLength, .errcode, 0x7#8, 0x5#8⟩,
   ⟨.errInvalidEncoding, .errcode, 0x7#8, 0x6#8⟩,
   ⟨.errChecksumMismatch, .errcode, 0x7#8, 0x7#8⟩]

/-- The rows of spec/opcode_table.json. -/
def opcodeTable : List Row :=
  cmdRows ++ symRowsAtoM ++ symRowsNtoZ ++ symRows2to7 ++ sepRows ++ errRows

/-- An item matches a row: the same format, and the masked bits are the row's. -/
def Row.matchesItem (r : Row) (f : Item) : Bool :=
  r.format == f.format && (f.bits &&& r.mask) == r.pattern

/-- The decoder: total on every item, rejecting by name. -/
def decode (f : Item) : Except Reject Instr :=
  if f.wf then
    match opcodeTable.find? (fun r => r.matchesItem f) with
    | some r => .ok r.instr
    | none => .error .noSuchRow
  else .error .tooWide

/-- The row of a character of an identifier: a base32 symbol or the separator. -/
def decodeChar (c : Byte) : Except Reject Instr :=
  match decode ⟨.b32sym, c⟩ with
  | .ok i => .ok i
  | .error _ => decode ⟨.idsep, c⟩

/-- The encoder: the item of each row, in its format's width. -/
def encode : Instr → Item
  | .encode => ⟨.cmd, 0x0#8⟩
  | .decode => ⟨.cmd, 0x1#8⟩
  | .symA => ⟨.b32sym, 0x41#8⟩
  | .symB => ⟨.b32sym, 0x42#8⟩
  | .symC => ⟨.b32sym, 0x43#8⟩
  | .symD => ⟨.b32sym, 0x44#8⟩
  | .symE => ⟨.b32sym, 0x45#8⟩
  | .symF => ⟨.b32sym, 0x46#8⟩
  | .symG => ⟨.b32sym, 0x47#8⟩
  | .symH => ⟨.b32sym, 0x48#8⟩
  | .symI => ⟨.b32sym, 0x49#8⟩
  | .symJ => ⟨.b32sym, 0x4A#8⟩
  | .symK => ⟨.b32sym, 0x4B#8⟩
  | .symL => ⟨.b32sym, 0x4C#8⟩
  | .symM => ⟨.b32sym, 0x4D#8⟩
  | .symN => ⟨.b32sym, 0x4E#8⟩
  | .symO => ⟨.b32sym, 0x4F#8⟩
  | .symP => ⟨.b32sym, 0x50#8⟩
  | .symQ => ⟨.b32sym, 0x51#8⟩
  | .symR => ⟨.b32sym, 0x52#8⟩
  | .symS => ⟨.b32sym, 0x53#8⟩
  | .symT => ⟨.b32sym, 0x54#8⟩
  | .symU => ⟨.b32sym, 0x55#8⟩
  | .symV => ⟨.b32sym, 0x56#8⟩
  | .symW => ⟨.b32sym, 0x57#8⟩
  | .symX => ⟨.b32sym, 0x58#8⟩
  | .symY => ⟨.b32sym, 0x59#8⟩
  | .symZ => ⟨.b32sym, 0x5A#8⟩
  | .sym2 => ⟨.b32sym, 0x32#8⟩
  | .sym3 => ⟨.b32sym, 0x33#8⟩
  | .sym4 => ⟨.b32sym, 0x34#8⟩
  | .sym5 => ⟨.b32sym, 0x35#8⟩
  | .sym6 => ⟨.b32sym, 0x36#8⟩
  | .sym7 => ⟨.b32sym, 0x37#8⟩
  | .sep => ⟨.idsep, 0x5F#8⟩
  | .errOK => ⟨.errcode, 0x0#8⟩
  | .errInvalidPrefixLength => ⟨.errcode, 0x1#8⟩
  | .errInvalidInputLength => ⟨.errcode, 0x2#8⟩
  | .errInvalidIdentifierLength => ⟨.errcode, 0x3#8⟩
  | .errInvalidDataSegmentCount => ⟨.errcode, 0x4#8⟩
  | .errInvalidDataSegmentLength => ⟨.errcode, 0x5#8⟩
  | .errInvalidEncoding => ⟨.errcode, 0x6#8⟩
  | .errChecksumMismatch => ⟨.errcode, 0x7#8⟩

/-- The 5-bit value of a base32 symbol row (30_encoding R74); none for the rows of the other formats. -/
def symValue : Instr → Option (BitVec 5)
  | .symA => some 0#5
  | .symB => some 1#5
  | .symC => some 2#5
  | .symD => some 3#5
  | .symE => some 4#5
  | .symF => some 5#5
  | .symG => some 6#5
  | .symH => some 7#5
  | .symI => some 8#5
  | .symJ => some 9#5
  | .symK => some 10#5
  | .symL => some 11#5
  | .symM => some 12#5
  | .symN => some 13#5
  | .symO => some 14#5
  | .symP => some 15#5
  | .symQ => some 16#5
  | .symR => some 17#5
  | .symS => some 18#5
  | .symT => some 19#5
  | .symU => some 20#5
  | .symV => some 21#5
  | .symW => some 22#5
  | .symX => some 23#5
  | .symY => some 24#5
  | .symZ => some 25#5
  | .sym2 => some 26#5
  | .sym3 => some 27#5
  | .sym4 => some 28#5
  | .sym5 => some 29#5
  | .sym6 => some 30#5
  | .sym7 => some 31#5
  | .encode | .decode | .sep => none
  | .errOK | .errInvalidPrefixLength | .errInvalidInputLength | .errInvalidIdentifierLength => none
  | .errInvalidDataSegmentCount | .errInvalidDataSegmentLength | .errInvalidEncoding | .errChecksumMismatch => none

/-- The item that a table word stands for. A word of 1 bit is a command and one of 3 bits an error code. A word
given as a whole byte does not say its format: 0 and 1 are read as the commands, 2 to 7 as error codes, 0x5F as the
separator and every other byte as a base32 character (log 13, DESIGN CHOICE). -/
def tableItem (nbits w : Nat) : Item :=
  let b := BitVec.ofNat 8 w
  if nbits = 1 then ⟨.cmd, b⟩
  else if nbits = 3 then ⟨.errcode, b⟩
  else if w ≤ 1 then ⟨.cmd, b⟩
  else if w ≤ 7 then ⟨.errcode, b⟩
  else if b = 0x5F#8 then ⟨.idsep, b⟩
  else ⟨.b32sym, b⟩

/-- The instruction the decoder reads from a word of spec/opcode_table.json. -/
def decodeTableWord (nbits w : Nat) : Option Instr :=
  (decode (tableItem nbits w)).toOption

end Sys2Proof
end

