-- ==== Sys2Proof/Config.lean ====
section
/-! DEFINITION. The constants of the core (spec/00_scope.md R6, R7), its open parameters (R8) and the
free values. The opaque constants have no body: nothing can be proved of a value of theirs. -/

namespace Sys2Proof.Config

open Sys2Proof

/-- 00_scope R6. -/
abbrev prefixLength : Nat := 3
/-- 00_scope R6. -/
abbrev publicKeyLength : Nat := 32
/-- 00_scope R6. -/
abbrev identifierLength : Nat := 66
/-- 00_scope R6. -/
abbrev segmentCount : Nat := 7
/-- 00_scope R6. -/
abbrev segmentLength : Nat := 8
/-- 00_scope R7. -/
abbrev checksumLength : Nat := 3
/-- 00_scope R7. -/
abbrev digestLength : Nat := 32
/-- 00_scope R7: the key and the checksum (or the prefix). -/
abbrev bufferLength : Nat := 35
/-- 00_scope R7: the payload string. -/
abbrev payloadChars : Nat := 56
/-- 00_scope R7: one separator before each segment. -/
abbrev separatorCount : Nat := 7

/-- The separator `_` (00_scope R7, 90_conflicts C1). -/
abbrev separator : Byte := 0x5F#8

/-- 00_scope R8: `LENW >= 7`, otherwise open; this is how far `LENW` exceeds 7 (log 4, DESIGN CHOICE). -/
opaque lenwAbove7 : Nat

/-- `LENW`, the width in bits of a length field (00_scope R8, 92_eei_decisions D5; log 4, DESIGN CHOICE). -/
def lenw : Nat := 7 + lenwAbove7

/-- 00_scope R8: `N_INST`, a system has at least one core, otherwise open (log 9, DESIGN CHOICE). -/
opaque nInstAbove1 : Nat

/-- `N_INST`, the number of independent cores of a system (00_scope R8, 92_eei_decisions D24; log 9, DESIGN CHOICE). -/
def nInst : Nat := 1 + nInstAbove1

/-- The freely chosen bytes that a read of a register without a fixed content returns
(10_state R30, 93_implementation_defined U1, U2, U9; log 8, DESIGN CHOICE): byte `k` of source `j`. That a byte is a function of these two
numbers, and of nothing the core has computed, is the model's choice (log 23, DESIGN CHOICE). -/
opaque freeByte (j k : Nat) : Byte

/-- What byte `i` of the input registers contains, on the core of source `j` after its reset number `e`, as long as the HOST has not written
it: freely chosen, and the same until the next reset (log 2, log 20). -/
opaque unwrittenByte (j e i : Nat) : Byte

/-- As `unwrittenByte`, for length register `i` (log 20, DESIGN CHOICE). -/
opaque unwrittenLength (j e i : Nat) : Nat

end Sys2Proof.Config
end

