-- ==== Sys2Proof/Machine/State.lean ====
section
/-! DEFINITION. The state of one core (spec/10_state.md R21 and section 6 there), the model's own fields beside
it, the reasons a step can stop, and the state after reset (spec/10_state.md R31). -/

namespace Sys2Proof.Machine

open Sys2Proof

/-- An input register: the spec gives it a state of its own, "holds no value" (10_state R30, R31), which is what reset leaves
(log 1, log 2). -/
inductive Slot (α : Type) where
  | noValue
  | value (v : α)
  deriving DecidableEq, Repr

/-- An output register: a value, or one of the two states in which a read returns any value (10_state R23, R30;
70_reset_and_hazards R245). -/
inductive Content (α : Type) where
  /-- nothing has written it since reset -/
  | noValue
  /-- "holds any value": the last operation of its command failed -/
  | any
  | value (v : α)
  deriving DecidableEq, Repr

/-- The seven input registers (10_state R21, R22). `REQ` has the same shape (R25). A length register holds a
number below `2^LENW` (log 4, DESIGN CHOICE). -/
structure Inputs where
  /-- `OP` -/
  op     : Slot (BitVec 1)
  /-- `PFX_LEN` -/
  pfxLen : Slot Nat
  /-- `PFX` -/
  pfx    : Slot (Bytes 3)
  /-- `KEY_LEN` -/
  keyLen : Slot Nat
  /-- `KEY_IN` -/
  keyIn  : Slot (Bytes 32)
  /-- `ID_LEN` -/
  idLen  : Slot Nat
  /-- `ID_IN` -/
  idIn   : Slot (Bytes 66)
  deriving DecidableEq, Repr

/-- A value the HOST has read from a port (45_operations R195). -/
inductive HostValue where
  | busy (b : Bool)
  | done (b : Bool)
  | err (c : BitVec 3)
  | errPos (p : BitVec 6)
  | idOut (v : Bytes 66)
  | keyOut (v : Bytes 32)
  deriving DecidableEq, Repr

/-- The state: the core's own (10_state R21, "Nothing else is state"), then the model's own fields. -/
structure State where
  /-- `OP`, `PFX_LEN`, `PFX`, `KEY_LEN`, `KEY_IN`, `ID_LEN`, `ID_IN` -/
  inp    : Inputs
  /-- `REQ` (10_state R25) -/
  req    : Inputs
  /-- `BUSY` (10_state R24) -/
  busy   : Bool
  /-- `DONE` (10_state R24) -/
  done   : Bool
  /-- `ERR` (10_state R24) -/
  err    : BitVec 3
  /-- `ERR_POS` (10_state R24) -/
  errPos : BitVec 6
  /-- `ID_OUT` (10_state R23) -/
  idOut  : Content (Bytes 66)
  /-- `KEY_OUT` (10_state R23) -/
  keyOut : Content (Bytes 32)
  /-- the MODEL's: the turns still to come, of the HOST and of the CORE (log 3, DESIGN CHOICE) -/
  agenda : List Turn
  /-- the MODEL's: the byte of `ID_IN` that the HOST's character write addresses (log 6, DESIGN CHOICE) -/
  idSel  : Fin 66
  /-- the MODEL's: what the HOST has read, newest first (log 7, DESIGN CHOICE) -/
  hostLog : List HostValue
  /-- the MODEL's: how many free bytes have been drawn (log 8, DESIGN CHOICE) -/
  freeCount : Nat
  /-- the MODEL's: the source of this core's free bytes; the cores of a system have different ones (log 23, DESIGN CHOICE) -/
  freeSource : Nat
  /-- the MODEL's: how many RESETs there have been, so that what an unwritten register contains is another after each (log 2, DESIGN CHOICE) -/
  resetCount : Nat
  deriving DecidableEq, Repr

/-- "The core cannot hang, trap or fault" (60_exceptions R229): there is no fault, so nobody raises one. -/
inductive Fault where
  deriving DecidableEq, Repr

/-- Why a step has no meaning. -/
inductive Refusal where
  /-- Raised by nobody: every row of the table has its meaning. Safe. -/
  | notModelled (mnemonic : String)
  /-- Raised by a START whose command reads an input register that holds no value (10_state R30, 45_operations
  R192, 70_reset_and_hazards R248: "the model must refuse it"); by no row and by no turn of the core.
  Safe: "errs toward unprovable" (10_state R30). -/
  | unwrittenInput
  /-- Raised by a turn whose encoded item is no row: `OP` and `ERR` have no such value (30_encoding R76, R77), so
  no state reaches it (`Laws/Decode.lean`). Safe. -/
  | noSuchRow
  deriving DecidableEq, Repr

/-- Input registers that hold no value (10_state R31). -/
def Inputs.empty : Inputs where
  op     := .noValue
  pfxLen := .noValue
  pfx    := .noValue
  keyLen := .noValue
  keyIn  := .noValue
  idLen  := .noValue
  idIn   := .noValue

/-- The state after RESET (10_state R31, 70_reset_and_hazards R240). `REQ` is "meaningless" there: it holds no
value (log 5, DESIGN CHOICE). The model's own fields are empty or zero (log 2, 3, 6, 7, 8, 23). -/
def State.reset : State where
  inp       := Inputs.empty
  req       := Inputs.empty
  busy      := false
  done      := false
  err       := 0#3
  errPos    := 0#6
  idOut     := .noValue
  keyOut    := .noValue
  agenda    := []
  idSel     := 0
  hostLog   := []
  freeCount := 0
  freeSource := 0
  resetCount := 0

end Sys2Proof.Machine
end

