-- ==== Sys2Proof/Machine/Operands.lean ====
section
/-! DEFINITION. The operand forms: byte-array access (spec/20_memory.md R53), the operands of a command as its registers
hold them and the registers a command reads (spec/20_memory.md R55, spec/10_state.md R30), the case
normaliser (spec/42_assembler.md R140), the 35-byte buffers (spec/30_encoding.md R72, R73) and the length fields
(spec/10_state.md R22). -/

namespace Sys2Proof.Machine

open Sys2Proof

/-- `MemRead(B, i, n)` (20_memory R53); the range lies inside the buffer. -/
def memRead {m : Nat} (B : Bytes m) (i n : Nat) (h : i + n ≤ m) : Bytes n :=
  Vector.ofFn fun k => B[i + k.val]

/-- `MemWrite(B, i, n, v)` (20_memory R53); the range lies inside the buffer. -/
def memWrite {m n : Nat} (B : Bytes m) (i : Nat) (v : Bytes n) (_h : i + n ≤ m) : Bytes m :=
  Vector.ofFn fun k =>
    if hk : i ≤ k.val ∧ k.val < i + n then v[k.val - i]'(by omega) else B[k.val]

/-- `a || b` (00_scope R10). -/
def cat {m n l : Nat} (a : Bytes m) (b : Bytes n) (h : l = m + n) : Bytes l :=
  Vector.ofFn fun k => if hk : k.val < m then a[k.val] else b[k.val - m]'(by omega)

/-- The value of an input register, or `d` where it holds no value. -/
def Slot.getD {α : Type} (d : α) : Slot α → α
  | .noValue => d
  | .value v => v

/-- The register holds a value (10_state R30). -/
def Slot.held {α : Type} : Slot α → Bool
  | .noValue => false
  | .value _ => true

/-- The HOST's length `n` as a `LENW`-bit field holds it: `min(n, 2^LENW - 1)` (10_state R22). `LENW >= 7`, so a
length of at most 127 is held as it is, whatever `LENW` (`Laws/Operands.lean`, `saturate_of_le`). -/
def saturate (n : Nat) : Nat := if n ≤ 127 then n else min n (2 ^ Config.lenw - 1)

/-- The next `n` freely chosen bytes of source `j` (10_state R30; log 8, DESIGN CHOICE). Two reads at the same source and count return the
same bytes, on whatever core and after whatever request: the model's choice (log 23, DESIGN CHOICE). -/
def freeBytes (j k n : Nat) : Bytes n := Vector.ofFn fun i => Config.freeByte j (k + i.val)

/-- What the `n` bytes from byte `i` of the input registers on contain while nothing has written them (log 2, DESIGN CHOICE): those of `PFX` are
bytes 0 to 2, of `KEY_IN` 3 to 34, of `ID_IN` 35 to 100; byte 101 is for `OP`. -/
def unwrittenBytes (j e i n : Nat) : Bytes n := Vector.ofFn fun k => Config.unwrittenByte j e (i + k.val)

/-- What length register `i` contains while nothing has written it: at most `2^LENW - 1` (10_state R22; log 20, DESIGN CHOICE). -/
def unwrittenLen (j e i : Nat) : Nat := saturate (Config.unwrittenLength j e i)

/-- What `PFX` contains: its value, or unstated bytes (log 2, DESIGN CHOICE). -/
def Inputs.pfxBytes (r : Inputs) (j e : Nat) : Bytes 3 := r.pfx.getD (unwrittenBytes j e 0 3)

/-- What `KEY_IN` contains: its value, or unstated bytes (log 2, DESIGN CHOICE). -/
def Inputs.keyBytes (r : Inputs) (j e : Nat) : Bytes 32 := r.keyIn.getD (unwrittenBytes j e 3 32)

/-- What `ID_IN` contains: its value, or unstated bytes (log 2, DESIGN CHOICE). -/
def Inputs.idBytes (r : Inputs) (j e : Nat) : Bytes 66 := r.idIn.getD (unwrittenBytes j e 35 66)

/-- Every register that ENCODE reads holds a value; a register is read only when every check before it
passed (20_memory R55, 70_reset_and_hazards R248). -/
def Inputs.encodeReadable (r : Inputs) : Bool :=
  match r.pfxLen with
  | .noValue => false
  | .value np =>
    np ≠ Config.prefixLength ||
      match r.keyLen with
      | .noValue => false
      | .value nk => nk ≠ Config.publicKeyLength || (r.pfx.held && r.keyIn.held)

/-- Every register that DECODE reads holds a value (20_memory R55, 70_reset_and_hazards R248). -/
def Inputs.decodeReadable (r : Inputs) : Bool :=
  match r.idLen with
  | .noValue => false
  | .value n => n ≠ Config.identifierLength || r.idIn.held

/-- `OP` and every register that the command it selects reads hold a value (10_state R30). -/
def Inputs.readable (r : Inputs) : Bool :=
  match r.op with
  | .noValue => false
  | .value o => if o = 0#1 then r.encodeReadable else r.decodeReadable

/-- UPCASE3 on one byte (42_assembler R140): 0x61..0x7A lose 0x20, every other byte is unchanged (log 11, DEDUCED). -/
def upcaseByte (b : Byte) : Byte := if 0x61#8 ≤ b ∧ b ≤ 0x7A#8 then b - 0x20#8 else b

/-- UPCASE3 (42_assembler R140). -/
def upcase3 (pfx : Bytes 3) : Bytes 3 := Vector.ofFn fun i => upcaseByte pfx[i]

/-- `HIN`: key, then normalised prefix (30_encoding R73). -/
def hashInput (key : Bytes 32) (p : Bytes 3) : Bytes 35 := cat key p (by omega)

/-- `PAY`: key, then checksum (30_encoding R72). -/
def payload (key : Bytes 32) (cs : Bytes 3) : Bytes 35 := cat key cs (by omega)

/-- The key of a payload, `PAY[0:32)` (30_encoding R72). -/
def payloadKey (pay : Bytes 35) : Bytes 32 := memRead pay 0 32 (by omega)

/-- The embedded checksum of a payload, `PAY[32:35)` (30_encoding R72). -/
def payloadChecksum (pay : Bytes 35) : Bytes 3 := memRead pay 32 3 (by omega)

end Sys2Proof.Machine
end

