-- ==== Sys2Proof/Machine/Assembler.lean ====
section
/-! DEFINITION. The unit ASM: the delimiters are inserted (spec/42_assembler.md R141; the case normaliser UPCASE3 of the
same unit is an operand form and stands in Operands.lean). -/

namespace Sys2Proof.Machine

open Sys2Proof

/-- ASSEMBLE (42_assembler R141), by position (30_encoding R71): the normalised prefix at 0..2, and after it seven groups
of nine bytes, a separator at `3 + 9j` and segment `j` at `4 + 9j .. 11 + 9j`. -/
def assemble (p : Bytes 3) (s : Bytes 56) : Bytes 66 :=
  Vector.ofFn fun q =>
    if hp : q.val < 3 then p[q.val]
    else if (q.val - 3) % 9 = 0 then Config.separator
    else s[8 * ((q.val - 3) / 9) + ((q.val - 3) % 9 - 1)]'(by omega)

end Sys2Proof.Machine
end

