-- ==== Sys2Proof/Machine/Base32.lean ====
section
/-! DEFINITION. The units B32E and B32D: base32 of exactly 35 bytes / 56 characters (spec/41_base32.md R120, R121; the
symbol table of spec/30_encoding.md R74). -/

namespace Sys2Proof.Machine

open Sys2Proof

/-- `sym(v)`: the character of a 5-bit value (30_encoding R74). -/
def sym (v : BitVec 5) : Byte :=
  if v ≤ 25#5 then 0x41#8 + v.setWidth 8 else 0x32#8 + (v.setWidth 8 - 26#8)

/-- `val(c)`: the value of a character, none outside the alphabet (30_encoding R74). -/
def val (c : Byte) : Option (BitVec 5) :=
  if 0x41#8 ≤ c ∧ c ≤ 0x5A#8 then some ((c - 0x41#8).setWidth 5)
  else if 0x32#8 ≤ c ∧ c ≤ 0x37#8 then some ((c - 0x32#8 + 26#8).setWidth 5)
  else none

/-- Bit `k` of the 280-bit string: bit `7 - (k mod 8)` of byte `k div 8` (20_memory R52, 41_base32 R120). -/
def payBit (pay : Bytes 35) (k : Fin 280) : Bool := (pay[k.val / 8]'(by omega)).getMsbD (k.val % 8)

/-- The five bits of group `i`, the first one most significant (41_base32 R120). -/
def payGroup (pay : Bytes 35) (i : Fin 56) : BitVec 5 :=
  BitVec.ofFnBE fun t => payBit pay ⟨5 * i.val + t.val, by omega⟩

/-- B32ENC (41_base32 R120). -/
def b32enc (pay : Bytes 35) : Bytes 56 := Vector.ofFn fun i => sym (payGroup pay i)

/-- The position of the first character outside the alphabet, in ascending order (41_base32 R121, R122). -/
def firstBad (s : Bytes 56) : Option (Fin 56) := (List.finRange 56).find? fun i => (val s[i]).isNone

/-- The value of character `i` of a string all of whose characters are in the alphabet. On a character outside
the alphabet it is never used: B32DEC has answered `Bad` before (41_base32 R121). -/
def charValue (s : Bytes 56) (i : Fin 56) : BitVec 5 := (val s[i]).getD 0#5

/-- Bit `k` of the 280-bit string that the characters carry (41_base32 R121). -/
def charBit (s : Bytes 56) (k : Fin 280) : Bool := (charValue s ⟨k.val / 5, by omega⟩).getMsbD (k.val % 5)

/-- The 35 bytes that the 56 characters carry (41_base32 R121). -/
def charsToBytes (s : Bytes 56) : Bytes 35 :=
  Vector.ofFn fun j => BitVec.ofFnBE fun t : Fin 8 => charBit s ⟨8 * j.val + t.val, by omega⟩

/-- B32DEC: the payload, or the position of the first bad character (41_base32 R121). -/
def b32dec (s : Bytes 56) : Except (Fin 56) (Bytes 35) :=
  match firstBad s with
  | some i => .error i
  | none => .ok (charsToBytes s)

end Sys2Proof.Machine
end

