-- ==== Sys2Proof/Machine/Checksum.lean ====
section
/-! DEFINITION. The unit CSUM: SHA3-256 of 35 bytes, truncated to 3 (spec/40_checksum.md R100 to R109). -/

namespace Sys2Proof.Machine

open Sys2Proof

/-- Lane `A[x][y]`; index arithmetic is modulo 5 (40_checksum R102, R103). -/
def laneAt (A : Lanes) (x y : Nat) : Lane := A[x % 5 + 5 * (y % 5)]'(by omega)

/-- The lanes `A[x][y] = f x y`. -/
def lanesOf (f : Nat → Nat → Lane) : Lanes := Vector.ofFn fun i => f (i.val % 5) (i.val / 5)

/-- 40_checksum R104, first line: the parity of column `x`. -/
def columnParity (A : Lanes) (x : Nat) : Lane :=
  laneAt A x 0 ^^^ laneAt A x 1 ^^^ laneAt A x 2 ^^^ laneAt A x 3 ^^^ laneAt A x 4

/-- THETA (40_checksum R104). -/
def theta (A : Lanes) : Lanes :=
  let C : Vector Lane 5 := Vector.ofFn fun x => columnParity A x
  let D : Vector Lane 5 := Vector.ofFn fun x =>
    C[(x.val + 4) % 5]'(by omega) ^^^ (C[(x.val + 1) % 5]'(by omega)).rotateLeft 1
  lanesOf fun x y => laneAt A x y ^^^ D[x % 5]'(by omega)

/-- The rotation offsets, `RHO_OFF[x][y]` at index `x + 5y` (40_checksum R105). -/
def rhoOffsets : Vector Nat 25 :=
  #v[ 0,  1, 62, 28, 27,
     36, 44,  6, 55, 20,
      3, 10, 43, 25, 39,
     41, 45, 15, 21,  8,
     18,  2, 61, 56, 14]

/-- `RHO_OFF[x][y]` (40_checksum R105). -/
def rhoOffset (x y : Nat) : Nat := rhoOffsets[x % 5 + 5 * (y % 5)]'(by omega)

/-- RHO (40_checksum R105). -/
def rho (A : Lanes) : Lanes := lanesOf fun x y => (laneAt A x y).rotateLeft (rhoOffset x y)

/-- PI, in the form `A'[x][y] = A[(x + 3y) mod 5][x]` (40_checksum R106). -/
def piStep (A : Lanes) : Lanes := lanesOf fun x y => laneAt A (x + 3 * y) x

/-- CHI (40_checksum R107). -/
def chi (A : Lanes) : Lanes :=
  lanesOf fun x y => laneAt A x y ^^^ (~~~ laneAt A (x + 1) y &&& laneAt A (x + 2) y)

/-- The round constants 0 to 11 (40_checksum R108). -/
def roundConstantsLow : Vector Lane 12 :=
  #v[0x0000000000000001#64, 0x0000000000008082#64, 0x800000000000808A#64, 0x8000000080008000#64,
     0x000000000000808B#64, 0x0000000080000001#64, 0x8000000080008081#64, 0x8000000000008009#64,
     0x000000000000008A#64, 0x0000000000000088#64, 0x0000000080008009#64, 0x000000008000000A#64]

/-- The round constants 12 to 23 (40_checksum R108). -/
def roundConstantsHigh : Vector Lane 12 :=
  #v[0x000000008000808B#64, 0x800000000000008B#64, 0x8000000000008089#64, 0x8000000000008003#64,
     0x8000000000008002#64, 0x8000000000000080#64, 0x000000000000800A#64, 0x800000008000000A#64,
     0x8000000080008081#64, 0x8000000000008080#64, 0x0000000080000001#64, 0x8000000080008008#64]

/-- `RC[ir]`, `ir` in 0..23 (40_checksum R108). -/
def roundConstant (ir : Nat) : Lane :=
  if ir < 12 then roundConstantsLow[ir % 12]'(by omega) else roundConstantsHigh[ir % 12]'(by omega)

/-- IOTA (40_checksum R108). -/
def iota (A : Lanes) (ir : Nat) : Lanes := A.set 0 (A[0] ^^^ roundConstant ir)

/-- Round `ir` (40_checksum R103). -/
def keccakRound (A : Lanes) (ir : Nat) : Lanes := iota (chi (piStep (rho (theta A)))) ir

/-- The state after rounds 0 to `n - 1` (40_checksum R103). -/
def keccakRounds : Nat → Lanes → Lanes
  | 0, A => A
  | n + 1, A => keccakRound (keccakRounds n A) n

/-- KECCAK_F1600: 24 rounds (40_checksum R103). -/
def keccakF1600 (A : Lanes) : Lanes := keccakRounds 24 A

/-- LANES: bits `8j+7..8j` of lane `i` are byte `8i + j` of the block (40_checksum R102). -/
def lanes (blk : Bytes 200) : Lanes :=
  Vector.ofFn fun i =>
    blk[8 * i.val + 7] ++ blk[8 * i.val + 6] ++ blk[8 * i.val + 5] ++ blk[8 * i.val + 4] ++
      blk[8 * i.val + 3] ++ blk[8 * i.val + 2] ++ blk[8 * i.val + 1] ++ blk[8 * i.val]

/-- BYTES: byte `8i + j` is bits `8j+7..8j` of lane `i` (40_checksum R102). -/
def lanesToBytes (A : Lanes) : Bytes 200 :=
  Vector.ofFn fun k => (A[k.val / 8]'(by omega)).extractLsb' (8 * (k.val % 8)) 8

/-- The one block of a 35-byte message: the message, 0x06, zeros, and 0x80 at byte 135 (40_checksum R101). -/
def sha3Block (m : Bytes 35) : Bytes 200 :=
  ((memWrite (Vector.replicate 200 0x00#8) 0 m (by omega)).set 35 0x06#8).set 135 0x80#8

/-- SHA3_256_35 (40_checksum R101). Irreducible: a claim that needs only that the checksum is a function of key and prefix does not
unfold Keccak (40_checksum, introduction). -/
@[irreducible] def sha3_256_35 (m : Bytes 35) : Bytes 32 :=
  memRead (lanesToBytes (keccakF1600 (lanes (sha3Block m)))) 0 32 (by omega)

/-- CSUM3: the first three bytes of the digest, in order (40_checksum R100, R109). -/
def csum3 (hin : Bytes 35) : Bytes 3 := memRead (sha3_256_35 hin) 0 3 (by omega)

end Sys2Proof.Machine
end

