-- ==== Sys2Proof/Machine/Compare.lean ====
section
/-! DEFINITION. The unit CMP (spec/44_compare_errmux.md R170). -/

namespace Sys2Proof.Machine

open Sys2Proof

/-- CSCMP: byte-for-byte equality of two checksums (44_compare_errmux R170). -/
def cscmp (emb computed : Bytes 3) : Bool := emb[0] == computed[0] && emb[1] == computed[1] && emb[2] == computed[2]

end Sys2Proof.Machine
end

