-- ==== Sys2Proof/Machine/Flags.lean ====
section
/-! DEFINITION. The status codes of the error kinds (spec/30_encoding.md R77) and the error multiplexer
(spec/44_compare_errmux.md R171). -/

namespace Sys2Proof.Machine

open Sys2Proof

/-- `code(kind)` (30_encoding R77). -/
def errCode : ErrKind → BitVec 3
  | .invalidPrefixLength => 1#3
  | .invalidInputLength => 2#3
  | .invalidIdentifierLength => 3#3
  | .invalidDataSegmentCount => 4#3
  | .invalidDataSegmentLength => 5#3
  | .invalidEncoding _ => 6#3
  | .checksumMismatch => 7#3

/-- The datum of an error kind: the position for InvalidEncoding, otherwise 0 (30_encoding R77,
44_compare_errmux R175). -/
def errDatum : ErrKind → BitVec 6
  | .invalidEncoding pos => BitVec.ofNat 6 pos.val
  | .invalidPrefixLength | .invalidInputLength | .invalidIdentifierLength => 0#6
  | .invalidDataSegmentCount | .invalidDataSegmentLength | .checksumMismatch => 0#6

/-- The row of the opcode table whose value ERR has for an error kind (30_encoding R77). -/
def errRow : ErrKind → Instr
  | .invalidPrefixLength => .errInvalidPrefixLength
  | .invalidInputLength => .errInvalidInputLength
  | .invalidIdentifierLength => .errInvalidIdentifierLength
  | .invalidDataSegmentCount => .errInvalidDataSegmentCount
  | .invalidDataSegmentLength => .errInvalidDataSegmentLength
  | .invalidEncoding _ => .errInvalidEncoding
  | .checksumMismatch => .errChecksumMismatch

/-- `ERR` and `ERR_POS` as the result of a command leaves them: (0, 0) on success (45_operations R193). -/
def statusOf {α : Type} : Except ErrKind α → BitVec 3 × BitVec 6
  | .ok _ => (0#3, 0#6)
  | .error k => (errCode k, errDatum k)

/-- The condition flags of 44_compare_errmux R171, each true when its check fails. -/
structure ErrFlags where
  fPlE : Bool
  fIl  : Bool
  fIdl : Bool
  fPlD : Bool
  fSc  : Bool
  fSl  : Bool
  fEnc : Bool
  fCs  : Bool
  deriving DecidableEq, Repr

/-- ERRMUX (44_compare_errmux R171): the first failing check of the command, by priority. -/
def errmux (op : BitVec 1) (f : ErrFlags) (pos : BitVec 6) : BitVec 3 × BitVec 6 :=
  if op = 0#1 then
    if f.fPlE then (1#3, 0#6)
    else if f.fIl then (2#3, 0#6)
    else (0#3, 0#6)
  else
    if f.fIdl then (3#3, 0#6)
    else if f.fPlD then (1#3, 0#6)
    else if f.fSc then (4#3, 0#6)
    else if f.fSl then (5#3, 0#6)
    else if f.fEnc then (6#3, pos)
    else if f.fCs then (7#3, 0#6)
    else (0#3, 0#6)

end Sys2Proof.Machine
end

