-- ==== Sys2Proof/Machine/Ops.lean ====
section
/-! DEFINITION. The shared operations on the state: the HOST's actions (spec/45_operations.md R192, R194, R195,
spec/70_reset_and_hazards.md R240), the two ways an operation ends (spec/45_operations.md R193), of which the error
one is this core's "trap entry" (spec/60_exceptions.md R220), and what the HOST does after it. -/

namespace Sys2Proof.Machine

open Sys2Proof

/-! ### HOST_WRITE -/

/-- A data register after a write of the positions that `bytes` holds (45_operations R194): it keeps its other bytes, `old`, which are
unstated where it held no value (log 2, DESIGN CHOICE). A write of no byte leaves it as it is. -/
def writeBytes {n : Nat} (r : Slot (Bytes n)) (old : Bytes n) (bytes : Vector (Option Byte) n) : Slot (Bytes n) :=
  if bytes.toList.any Option.isSome then .value (Vector.ofFn fun i => bytes[i].getD old[i]) else r

/-- HOST_WRITE on the input registers of the core of source `j` after its reset number `e`: only the register written changes
(45_operations R194). -/
def Inputs.hostWrite (r : Inputs) (j e : Nat) : HostWrite → Inputs
  | .op v => { r with op := .value v }
  | .pfxLen n => { r with pfxLen := .value (saturate n) }
  | .pfx m => { r with pfx := writeBytes r.pfx (r.pfxBytes j e) m }
  | .keyLen n => { r with keyLen := .value (saturate n) }
  | .keyIn m => { r with keyIn := writeBytes r.keyIn (r.keyBytes j e) m }
  | .idLen n => { r with idLen := .value (saturate n) }
  | .idIn m => { r with idIn := writeBytes r.idIn (r.idBytes j e) m }
  | .idChar i c => { r with idIn := .value ((r.idBytes j e).set i.val c) }

/-- HOST_WRITE (45_operations R194): `REQ`, the status and the outputs are not touched. -/
def State.hostWrite (s : State) (w : HostWrite) : State := { s with inp := s.inp.hostWrite s.freeSource s.resetCount w }

/-- HOST_WRITE of one character of `ID_IN` (45_operations R194): the effect of a B32SYM or IDSEP row (log 6, DESIGN CHOICE). -/
def State.putChar (s : State) (i : Fin 66) (c : Byte) : State := s.hostWrite (.idChar i c)

/-! ### HOST_READ -/

/-- The HOST has received a value; the core is not touched (45_operations R195). -/
def State.logRead (s : State) (v : HostValue) : State := { s with hostLog := v :: s.hostLog }

/-- What a read of an output register returns: its value, or freely chosen bytes (10_state R30,
70_reset_and_hazards R245). -/
def Content.read {n : Nat} (c : Content (Bytes n)) (j k : Nat) : Bytes n :=
  match c with
  | .value v => v
  | .noValue | .any => freeBytes j k n

/-- How many free bytes such a read draws. -/
def Content.draws {n : Nat} (c : Content (Bytes n)) : Nat :=
  match c with
  | .value _ => 0
  | .noValue | .any => n

/-- HOST_READ of an output or status port (45_operations R195). -/
def State.hostRead (s : State) : Port → State
  | .busy => s.logRead (.busy s.busy)
  | .done => s.logRead (.done s.done)
  | .err => s.logRead (.err s.err)
  | .errPos => s.logRead (.errPos s.errPos)
  | .idOut => { s.logRead (.idOut (s.idOut.read s.freeSource s.freeCount)) with freeCount := s.freeCount + s.idOut.draws }
  | .keyOut => { s.logRead (.keyOut (s.keyOut.read s.freeSource s.freeCount)) with freeCount := s.freeCount + s.keyOut.draws }

/-- The rest of step 5 of 45_operations R196, after `HOST_READ ERR`: the output register of the command when ERR is 0, ERR_POS
when ERR is 6, nothing otherwise. -/
def State.hostReadResult (s : State) (op : BitVec 1) : State :=
  if s.err = 0#3 then s.hostRead (if op = 0#1 then .idOut else .keyOut)
  else if s.err = 6#3 then s.hostRead .errPos
  else s

/-! ### START and RESET -/

/-- START (45_operations R192): ignored while `BUSY` = 1; refused when the command reads a register that holds no value
(10_state R30); otherwise all inputs are sampled at once. -/
def State.start (s : State) : Host.Outcome State Fault Refusal :=
  if s.busy then .next s
  else if s.inp.readable then .next { s with req := s.inp, busy := true, done := false }
  else .refused .unwrittenInput

/-- RESET (70_reset_and_hazards R240): the core is as after reset. What the HOST has read and still means to do is
the HOST's and stays (log 14, DESIGN CHOICE). -/
def State.hostReset (s : State) : State :=
  { State.reset with agenda := s.agenda, idSel := s.idSel, hostLog := s.hostLog, freeCount := s.freeCount,
                     freeSource := s.freeSource, resetCount := s.resetCount + 1 }

/-! ### COMPLETE -/

/-- Every COMPLETE: the status is written, `BUSY` falls and `DONE` rises, in one action (45_operations R193). -/
def State.complete (s : State) (status : BitVec 3 × BitVec 6) : State :=
  { s with err := status.1, errPos := status.2, busy := false, done := true }

/-- The output register of a command after an error holds any value; the other one is unchanged (45_operations R193,
70_reset_and_hazards R245). -/
def State.spoilOutput (s : State) (op : BitVec 1) : State :=
  if op = 0#1 then { s with idOut := .any } else { s with keyOut := .any }

/-- Reporting an error, for every error kind and both commands (60_exceptions R220): this is all that an error does. No
control is transferred, nothing is saved, and there is nothing to return from (60_exceptions R221): the next START
begins afresh. -/
def State.raiseErr (s : State) (op : BitVec 1) (k : ErrKind) : State :=
  (s.spoilOutput op).complete (errCode k, errDatum k)

/-- A successful ENCODE (45_operations R193). -/
def State.returnIdentifier (s : State) (id : Bytes 66) : State :=
  { s with idOut := .value id }.complete (0#3, 0#6)

/-- A successful DECODE (45_operations R193). -/
def State.returnKey (s : State) (key : Bytes 32) : State :=
  { s with keyOut := .value key }.complete (0#3, 0#6)

end Sys2Proof.Machine
end

