-- ==== Sys2Proof/Machine/Parser.lean ====
section
/-! DEFINITION. The unit PAR: the split at the separators and the four structural checks, in order
(spec/43_parser.md R150 to R156). -/

namespace Sys2Proof.Machine

open Sys2Proof

/-- SPLIT (43_parser R152): the first token, and the tokens after it. Every separator byte cuts; empty tokens are
kept. -/
def split : List Byte → List Byte × List (List Byte)
  | [] => ([], [])
  | c :: cs =>
    if c = Config.separator then ([], (split cs).1 :: (split cs).2)
    else (c :: (split cs).1, (split cs).2)

/-- What PARSE hands on: the prefix as it stands, the seven segments and their concatenation (43_parser R156). -/
structure Parsed where
  p0  : Bytes 3
  seg : List (List Byte)
  s56 : Bytes 56
  deriving DecidableEq, Repr

/-- The concatenation of seven segments of eight bytes has 56 bytes. -/
theorem flatten_length_of_segments {seg : List (List Byte)} (hc : seg.length = Config.segmentCount)
    (hl : ∀ t ∈ seg, t.length = Config.segmentLength) : seg.flatten.toArray.size = 56 := by
  have hsum : ∀ l : List (List Byte), (∀ t ∈ l, t.length = 8) → l.flatten.length = 8 * l.length := by
    intro l
    induction l with
    | nil => intro _; rfl
    | cons t ts ih =>
      intro h
      have ht := h t (by simp)
      have hts := ih fun u hu => h u (by simp [hu])
      simp only [List.flatten_cons, List.length_append, List.length_cons, ht, hts]
      omega
  have h56 := hsum seg hl
  have h7 : seg.length = 7 := hc
  rw [h7] at h56
  simpa using h56

/-- The checks 3, 4 and 5 on the tokens, and the result (43_parser R153 to R156). -/
def checkTokens (p0 : List Byte) (seg : List (List Byte)) : Except ErrKind Parsed :=
  if hp : p0.length = Config.prefixLength then
    if hc : seg.length = Config.segmentCount then
      if hl : ∀ t ∈ seg, t.length = Config.segmentLength then
        .ok { p0 := ⟨p0.toArray, hp⟩, seg := seg, s56 := ⟨seg.flatten.toArray, flatten_length_of_segments hc hl⟩ }
      else .error .invalidDataSegmentLength
    else .error .invalidDataSegmentCount
  else .error .invalidPrefixLength

/-- PARSE (43_parser R150): the identifier's length first, and its bytes only when that is 66. -/
def parse (n : Nat) (id : Bytes 66) : Except ErrKind Parsed :=
  if n = Config.identifierLength then checkTokens (split id.toList).1 (split id.toList).2
  else .error .invalidIdentifierLength

end Sys2Proof.Machine
end

