-- ==== Sys2Proof/Machine/Commands.lean ====
section
/-! DEFINITION. The commands ENCODE and DECODE as functions (spec/45_operations.md R190, R191) and their meanings, which are
the two halves of the COMPLETE step (spec/45_operations.md R193; log 15, DEDUCED). -/

namespace Sys2Proof.Machine

open Sys2Proof

/-- The identifier of a key under a prefix, both of the right length (45_operations R190). -/
def encodeKey (pfx : Bytes 3) (key : Bytes 32) : Bytes 66 :=
  let p := upcase3 pfx
  let cs := csum3 (hashInput key p)
  assemble p (b32enc (payload key cs))

/-- ENCODE (45_operations R190). -/
def encodeCmd (np : Nat) (pfx : Bytes 3) (nk : Nat) (key : Bytes 32) : Except ErrKind (Bytes 66) :=
  if np ≠ Config.prefixLength then .error .invalidPrefixLength
  else if nk ≠ Config.publicKeyLength then .error .invalidInputLength
  else .ok (encodeKey pfx key)

/-- Step 7 and 8 of DECODE: the embedded checksum against the recomputed one (45_operations R191). -/
def verifyPayload (p0 : Bytes 3) (pay : Bytes 35) : Except ErrKind (Bytes 32) :=
  let emb := payloadChecksum pay
  let computed := csum3 (hashInput (payloadKey pay) (upcase3 p0))
  if cscmp emb computed then .ok (payloadKey pay) else .error .checksumMismatch

/-- DECODE (45_operations R191). -/
def decodeCmd (n : Nat) (id : Bytes 66) : Except ErrKind (Bytes 32) :=
  match parse n id with
  | .error k => .error k
  | .ok t =>
    match b32dec t.s56 with
    | .error pos => .error (.invalidEncoding pos)
    | .ok pay => verifyPayload t.p0 pay

/-- ENCODE on the operands a request holds (45_operations R193). A register of the request that holds no value is read as what it contains,
which is unstated; START lets no request read one (10_state R30; log 20, DESIGN CHOICE). -/
def Inputs.runEncode (r : Inputs) (j e : Nat) : Except ErrKind (Bytes 66) :=
  encodeCmd (r.pfxLen.getD (unwrittenLen j e 0)) (r.pfxBytes j e) (r.keyLen.getD (unwrittenLen j e 1)) (r.keyBytes j e)

/-- DECODE on the operands a request holds (45_operations R193), as `Inputs.runEncode`. -/
def Inputs.runDecode (r : Inputs) (j e : Nat) : Except ErrKind (Bytes 32) :=
  decodeCmd (r.idLen.getD (unwrittenLen j e 2)) (r.idBytes j e)

/-- ENCODE: COMPLETE with `REQ.OP` = 0 (45_operations R193). -/
def execEncode (s : State) : Host.Outcome State Fault Refusal :=
  match s.req.runEncode s.freeSource s.resetCount with
  | .ok id => .next (s.returnIdentifier id)
  | .error k => .next (s.raiseErr 0#1 k)

/-- DECODE: COMPLETE with `REQ.OP` = 1 (45_operations R193). -/
def execDecode (s : State) : Host.Outcome State Fault Refusal :=
  match s.req.runDecode s.freeSource s.resetCount with
  | .ok key => .next (s.returnKey key)
  | .error k => .next (s.raiseErr 1#1 k)

end Sys2Proof.Machine
end

