-- ==== Sys2Proof/Machine/ErrCodes.lean ====
section
/-! DEFINITION. The meanings of the rows of format ERRCODE (spec/30_encoding.md R77). Such a row is a value of the status
field ERR; the step of the machine that moves it is a HOST_READ of ERR (spec/45_operations.md R195), which has no
effect on the core: the HOST receives the code (log 7, DESIGN CHOICE). COMPLETE writes the field (spec/45_operations.md R193). -/

namespace Sys2Proof.Machine

open Sys2Proof

/-- ERR_OK: the HOST reads ERR = 0 (30_encoding R77). -/
def execErrOK (s : State) : Host.Outcome State Fault Refusal := .next (s.logRead (.err 0#3))

/-- ERR_InvalidPrefixLength: the HOST reads ERR = 1 (30_encoding R77). -/
def execErrInvalidPrefixLength (s : State) : Host.Outcome State Fault Refusal := .next (s.logRead (.err 1#3))

/-- ERR_InvalidInputLength: the HOST reads ERR = 2 (30_encoding R77). -/
def execErrInvalidInputLength (s : State) : Host.Outcome State Fault Refusal := .next (s.logRead (.err 2#3))

/-- ERR_InvalidIdentifierLength: the HOST reads ERR = 3 (30_encoding R77). -/
def execErrInvalidIdentifierLength (s : State) : Host.Outcome State Fault Refusal := .next (s.logRead (.err 3#3))

/-- ERR_InvalidDataSegmentCount: the HOST reads ERR = 4 (30_encoding R77). -/
def execErrInvalidDataSegmentCount (s : State) : Host.Outcome State Fault Refusal := .next (s.logRead (.err 4#3))

/-- ERR_InvalidDataSegmentLength: the HOST reads ERR = 5 (30_encoding R77). -/
def execErrInvalidDataSegmentLength (s : State) : Host.Outcome State Fault Refusal := .next (s.logRead (.err 5#3))

/-- ERR_InvalidEncoding: the HOST reads ERR = 6 (30_encoding R77). -/
def execErrInvalidEncoding (s : State) : Host.Outcome State Fault Refusal := .next (s.logRead (.err 6#3))

/-- ERR_ChecksumMismatch: the HOST reads ERR = 7 (30_encoding R77). -/
def execErrChecksumMismatch (s : State) : Host.Outcome State Fault Refusal := .next (s.logRead (.err 7#3))

end Sys2Proof.Machine
end

