-- ==== Sys2Proof/Machine/Symbols.lean ====
section
/-! DEFINITION. The meanings of the rows of formats B32SYM and IDSEP (spec/30_encoding.md R71, R74). Such a row is a
character; the step of the machine that moves a character is a HOST_WRITE of one byte of ID_IN
(spec/45_operations.md R194), here of the byte the HOST addresses, `idSel` (log 6, DESIGN CHOICE). -/

namespace Sys2Proof.Machine

open Sys2Proof

/-- SYM_A: the character `A`, value 0 (30_encoding R74), is written to ID_IN. -/
def execSymA (s : State) : Host.Outcome State Fault Refusal := .next (s.putChar s.idSel 0x41#8)

/-- SYM_B: the character `B`, value 1 (30_encoding R74), is written to ID_IN. -/
def execSymB (s : State) : Host.Outcome State Fault Refusal := .next (s.putChar s.idSel 0x42#8)

/-- SYM_C: the character `C`, value 2 (30_encoding R74), is written to ID_IN. -/
def execSymC (s : State) : Host.Outcome State Fault Refusal := .next (s.putChar s.idSel 0x43#8)

/-- SYM_D: the character `D`, value 3 (30_encoding R74), is written to ID_IN. -/
def execSymD (s : State) : Host.Outcome State Fault Refusal := .next (s.putChar s.idSel 0x44#8)

/-- SYM_E: the character `E`, value 4 (30_encoding R74), is written to ID_IN. -/
def execSymE (s : State) : Host.Outcome State Fault Refusal := .next (s.putChar s.idSel 0x45#8)

/-- SYM_F: the character `F`, value 5 (30_encoding R74), is written to ID_IN. -/
def execSymF (s : State) : Host.Outcome State Fault Refusal := .next (s.putChar s.idSel 0x46#8)

/-- SYM_G: the character `G`, value 6 (30_encoding R74), is written to ID_IN. -/
def execSymG (s : State) : Host.Outcome State Fault Refusal := .next (s.putChar s.idSel 0x47#8)

/-- SYM_H: the character `H`, value 7 (30_encoding R74), is written to ID_IN. -/
def execSymH (s : State) : Host.Outcome State Fault Refusal := .next (s.putChar s.idSel 0x48#8)

/-- SYM_I: the character `I`, value 8 (30_encoding R74), is written to ID_IN. -/
def execSymI (s : State) : Host.Outcome State Fault Refusal := .next (s.putChar s.idSel 0x49#8)

/-- SYM_J: the character `J`, value 9 (30_encoding R74), is written to ID_IN. -/
def execSymJ (s : State) : Host.Outcome State Fault Refusal := .next (s.putChar s.idSel 0x4A#8)

/-- SYM_K: the character `K`, value 10 (30_encoding R74), is written to ID_IN. -/
def execSymK (s : State) : Host.Outcome State Fault Refusal := .next (s.putChar s.idSel 0x4B#8)

/-- SYM_L: the character `L`, value 11 (30_encoding R74), is written to ID_IN. -/
def execSymL (s : State) : Host.Outcome State Fault Refusal := .next (s.putChar s.idSel 0x4C#8)

/-- SYM_M: the character `M`, value 12 (30_encoding R74), is written to ID_IN. -/
def execSymM (s : State) : Host.Outcome State Fault Refusal := .next (s.putChar s.idSel 0x4D#8)

/-- SYM_N: the character `N`, value 13 (30_encoding R74), is written to ID_IN. -/
def execSymN (s : State) : Host.Outcome State Fault Refusal := .next (s.putChar s.idSel 0x4E#8)

/-- SYM_O: the character `O`, value 14 (30_encoding R74), is written to ID_IN. -/
def execSymO (s : State) : Host.Outcome State Fault Refusal := .next (s.putChar s.idSel 0x4F#8)

/-- SYM_P: the character `P`, value 15 (30_encoding R74), is written to ID_IN. -/
def execSymP (s : State) : Host.Outcome State Fault Refusal := .next (s.putChar s.idSel 0x50#8)

/-- SYM_Q: the character `Q`, value 16 (30_encoding R74), is written to ID_IN. -/
def execSymQ (s : State) : Host.Outcome State Fault Refusal := .next (s.putChar s.idSel 0x51#8)

/-- SYM_R: the character `R`, value 17 (30_encoding R74), is written to ID_IN. -/
def execSymR (s : State) : Host.Outcome State Fault Refusal := .next (s.putChar s.idSel 0x52#8)

/-- SYM_S: the character `S`, value 18 (30_encoding R74), is written to ID_IN. -/
def execSymS (s : State) : Host.Outcome State Fault Refusal := .next (s.putChar s.idSel 0x53#8)

/-- SYM_T: the character `T`, value 19 (30_encoding R74), is written to ID_IN. -/
def execSymT (s : State) : Host.Outcome State Fault Refusal := .next (s.putChar s.idSel 0x54#8)

/-- SYM_U: the character `U`, value 20 (30_encoding R74), is written to ID_IN. -/
def execSymU (s : State) : Host.Outcome State Fault Refusal := .next (s.putChar s.idSel 0x55#8)

/-- SYM_V: the character `V`, value 21 (30_encoding R74), is written to ID_IN. -/
def execSymV (s : State) : Host.Outcome State Fault Refusal := .next (s.putChar s.idSel 0x56#8)

/-- SYM_W: the character `W`, value 22 (30_encoding R74), is written to ID_IN. -/
def execSymW (s : State) : Host.Outcome State Fault Refusal := .next (s.putChar s.idSel 0x57#8)

/-- SYM_X: the character `X`, value 23 (30_encoding R74), is written to ID_IN. -/
def execSymX (s : State) : Host.Outcome State Fault Refusal := .next (s.putChar s.idSel 0x58#8)

/-- SYM_Y: the character `Y`, value 24 (30_encoding R74), is written to ID_IN. -/
def execSymY (s : State) : Host.Outcome State Fault Refusal := .next (s.putChar s.idSel 0x59#8)

/-- SYM_Z: the character `Z`, value 25 (30_encoding R74), is written to ID_IN. -/
def execSymZ (s : State) : Host.Outcome State Fault Refusal := .next (s.putChar s.idSel 0x5A#8)

/-- SYM_2: the character `2`, value 26 (30_encoding R74), is written to ID_IN. -/
def execSym2 (s : State) : Host.Outcome State Fault Refusal := .next (s.putChar s.idSel 0x32#8)

/-- SYM_3: the character `3`, value 27 (30_encoding R74), is written to ID_IN. -/
def execSym3 (s : State) : Host.Outcome State Fault Refusal := .next (s.putChar s.idSel 0x33#8)

/-- SYM_4: the character `4`, value 28 (30_encoding R74), is written to ID_IN. -/
def execSym4 (s : State) : Host.Outcome State Fault Refusal := .next (s.putChar s.idSel 0x34#8)

/-- SYM_5: the character `5`, value 29 (30_encoding R74), is written to ID_IN. -/
def execSym5 (s : State) : Host.Outcome State Fault Refusal := .next (s.putChar s.idSel 0x35#8)

/-- SYM_6: the character `6`, value 30 (30_encoding R74), is written to ID_IN. -/
def execSym6 (s : State) : Host.Outcome State Fault Refusal := .next (s.putChar s.idSel 0x36#8)

/-- SYM_7: the character `7`, value 31 (30_encoding R74), is written to ID_IN. -/
def execSym7 (s : State) : Host.Outcome State Fault Refusal := .next (s.putChar s.idSel 0x37#8)

/-- SEP: the separator `_` (30_encoding R71) is written to ID_IN. -/
def execSep (s : State) : Host.Outcome State Fault Refusal := .next (s.putChar s.idSel 0x5F#8)

end Sys2Proof.Machine
end

