-- ==== Sys2Proof/Machine/Dispatch.lean ====
section
/-! DEFINITION. The dispatch of the 43 rows of spec/opcode_table.json to their meanings. -/

namespace Sys2Proof.Machine

open Sys2Proof

def exec (i : Instr) (s : State) : Host.Outcome State Fault Refusal :=
  match i with
  | .encode => Sys2Proof.Machine.execEncode s
  | .decode => Sys2Proof.Machine.execDecode s
  | .symA => Sys2Proof.Machine.execSymA s
  | .symB => Sys2Proof.Machine.execSymB s
  | .symC => Sys2Proof.Machine.execSymC s
  | .symD => Sys2Proof.Machine.execSymD s
  | .symE => Sys2Proof.Machine.execSymE s
  | .symF => Sys2Proof.Machine.execSymF s
  | .symG => Sys2Proof.Machine.execSymG s
  | .symH => Sys2Proof.Machine.execSymH s
  | .symI => Sys2Proof.Machine.execSymI s
  | .symJ => Sys2Proof.Machine.execSymJ s
  | .symK => Sys2Proof.Machine.execSymK s
  | .symL => Sys2Proof.Machine.execSymL s
  | .symM => Sys2Proof.Machine.execSymM s
  | .symN => Sys2Proof.Machine.execSymN s
  | .symO => Sys2Proof.Machine.execSymO s
  | .symP => Sys2Proof.Machine.execSymP s
  | .symQ => Sys2Proof.Machine.execSymQ s
  | .symR => Sys2Proof.Machine.execSymR s
  | .symS => Sys2Proof.Machine.execSymS s
  | .symT => Sys2Proof.Machine.execSymT s
  | .symU => Sys2Proof.Machine.execSymU s
  | .symV => Sys2Proof.Machine.execSymV s
  | .symW => Sys2Proof.Machine.execSymW s
  | .symX => Sys2Proof.Machine.execSymX s
  | .symY => Sys2Proof.Machine.execSymY s
  | .symZ => Sys2Proof.Machine.execSymZ s
  | .sym2 => Sys2Proof.Machine.execSym2 s
  | .sym3 => Sys2Proof.Machine.execSym3 s
  | .sym4 => Sys2Proof.Machine.execSym4 s
  | .sym5 => Sys2Proof.Machine.execSym5 s
  | .sym6 => Sys2Proof.Machine.execSym6 s
  | .sym7 => Sys2Proof.Machine.execSym7 s
  | .sep => Sys2Proof.Machine.execSep s
  | .errOK => Sys2Proof.Machine.execErrOK s
  | .errInvalidPrefixLength => Sys2Proof.Machine.execErrInvalidPrefixLength s
  | .errInvalidInputLength => Sys2Proof.Machine.execErrInvalidInputLength s
  | .errInvalidIdentifierLength => Sys2Proof.Machine.execErrInvalidIdentifierLength s
  | .errInvalidDataSegmentCount => Sys2Proof.Machine.execErrInvalidDataSegmentCount s
  | .errInvalidDataSegmentLength => Sys2Proof.Machine.execErrInvalidDataSegmentLength s
  | .errInvalidEncoding => Sys2Proof.Machine.execErrInvalidEncoding s
  | .errChecksumMismatch => Sys2Proof.Machine.execErrChecksumMismatch s

end Sys2Proof.Machine
end

