-- ==== Sys2Proof/Machine/Turns.lean ====
section
/-! DEFINITION. Whose turn it is and what it does (spec/10_state.md R20, R32; spec/45_operations.md R192 to R196), with the places from
which an encoded item is fetched: a command from `REQ.OP`, a character from the HOST's write of it, an error code from `ERR`. -/

namespace Sys2Proof.Machine

open Sys2Proof

/-- The item on the command port of the request (30_encoding R76). -/
def opItem (o : BitVec 1) : Item := ⟨.cmd, o.setWidth 8⟩

/-- The item in the status field `ERR` (30_encoding R77). -/
def errItem (c : BitVec 3) : Item := ⟨.errcode, c.setWidth 8⟩

/-- The command of the request, `REQ.OP`; unstated where it holds no value, which no START leaves behind (10_state R30; log 20, DESIGN
CHOICE). -/
def State.command (s : State) : BitVec 1 := s.req.op.getD ((Config.unwrittenByte s.freeSource s.resetCount 101).setWidth 1)

/-- COMPLETE (45_operations R193): enabled when `BUSY` = 1; the command is the value of `REQ.OP`. A core that is not busy has no step:
nothing changes (45_operations R201). -/
def State.coreTurn (s : State) : Host.Outcome State Fault Refusal :=
  if s.busy then
    match decode (opItem s.command) with
    | .ok i => exec i s
    | .error _ => .refused .noSuchRow
  else .next s

/-- The HOST presents a character at byte `i` of `ID_IN`: the row it is, or, for a byte that is no row, the same write
(45_operations R194). -/
def State.charTurn (s : State) (i : Fin 66) (c : Byte) : Host.Outcome State Fault Refusal :=
  match decodeChar c with
  | .ok ins => exec ins { s with idSel := i }
  | .error _ => .next ({ s with idSel := i }.putChar i c)

/-- The HOST reads `ERR`: the row that its value is (30_encoding R77). -/
def State.errTurn (s : State) : Host.Outcome State Fault Refusal :=
  match decode (errItem s.err) with
  | .ok ins => exec ins s
  | .error _ => .refused .noSuchRow

/-- An action of the HOST (10_state R32). -/
def State.hostTurn (s : State) : HostAction → Host.Outcome State Fault Refusal
  | .write (.idChar i c) => s.charTurn i c
  | .write w => .next (s.hostWrite w)
  | .start => s.start
  | .read .err => s.errTurn
  | .read p => .next (s.hostRead p)
  | .readResult op => .next (s.hostReadResult op)
  | .reset => .next s.hostReset

/-- One step of the system of HOST and CORE: the next turn of the agenda. With no turn left a busy core completes
(70_reset_and_hazards R251 (a)) and an idle one stays as it is (log 3, DESIGN CHOICE). -/
def State.turn (s : State) : Host.Outcome State Fault Refusal :=
  match s.agenda with
  | [] => s.coreTurn
  | .core :: rest => { s with agenda := rest }.coreTurn
  | .host a :: rest => { s with agenda := rest }.hostTurn a

/-- Every register that holds no value is given one: an empty sequence's length, zero bytes (log 16, DESIGN CHOICE). -/
def Inputs.filled (r : Inputs) (o : BitVec 1) : Inputs where
  op     := .value o
  pfxLen := .value (r.pfxLen.getD 0)
  pfx    := .value (r.pfx.getD (Vector.replicate 3 0#8))
  keyLen := .value (r.keyLen.getD 0)
  keyIn  := .value (r.keyIn.getD (Vector.replicate 32 0#8))
  idLen  := .value (r.idLen.getD 0)
  idIn   := .value (r.idIn.getD (Vector.replicate 66 0#8))

/-- The state whose next step fetches the item: a command is in flight with the input registers sampled, a character is about to
be written by the HOST, an error code stands in `ERR` and is about to be read (log 16, DESIGN CHOICE). -/
def State.withItem (s : State) (f : Item) : State :=
  match f.format with
  | .cmd =>
    { s with req := s.inp.filled (f.bits.setWidth 1), busy := true, done := false, agenda := .core :: s.agenda }
  | .b32sym => { s with agenda := .host (.write (.idChar s.idSel f.bits)) :: s.agenda }
  | .idsep => { s with agenda := .host (.write (.idChar s.idSel f.bits)) :: s.agenda }
  | .errcode => { s with err := f.bits.setWidth 3, agenda := .host (.read .err) :: s.agenda }

end Sys2Proof.Machine
end

