-- ==== Sys2Proof/Machine/Step.lean ====
section
/-! DEFINITION. One step of the machine, and the state whose next step runs a given word of spec/opcode_table.json. -/

namespace Sys2Proof.Machine

open Sys2Proof

/-- One step: the next turn (spec/45_operations.md section 2). -/
def step (s : State) : Host.Outcome State Fault Refusal := s.turn

/-- The word stored where the step fetches its next encoded item (log 16, DESIGN CHOICE). -/
def State.withFetchWord (s : State) (nbits w : Nat) : State := s.withItem (tableItem nbits w)

end Sys2Proof.Machine
end

