-- ==== Sys2Proof/Machine/HostProgram.lean ====
section
/-! DEFINITION. The transaction notation: one line stands for the whole sequence of turns of one operation as a host performs it
(spec/30_encoding.md R83, spec/45_operations.md R196). A wait for the core is a turn of the core. -/

namespace Sys2Proof.Machine

open Sys2Proof

/-- A write of every byte of a data register. -/
def fullWrite {n : Nat} (v : Bytes n) : Vector (Option Byte) n := Vector.ofFn fun i => some v[i]

/-- The bytes of a sequence of the right length, as a write of the whole register; a sequence of another length is not presented:
the register is not read (10_state R22, 45_operations R196). -/
def dataTurns (n : Nat) (write : Vector (Option Byte) n → HostWrite) (l : List Byte) : List Turn :=
  if h : l.length = n then [.host (.write (write (fullWrite ⟨l.toArray, h⟩)))] else []

/-- Steps 3 to 5 of 45_operations R196. -/
def runTurns (op : BitVec 1) : List Turn :=
  [.host .start, .core, .host (.read .done), .host (.read .err), .host (.readResult op)]

/-- The turns of a line, from the wait for `BUSY` = 0 to the read of the result (45_operations R196). -/
def lineTurns : Line → List Turn
  | .encode pfx key =>
    .core :: .host (.write (.op 0#1)) :: .host (.write (.pfxLen pfx.length)) :: .host (.write (.keyLen key.length)) ::
      (dataTurns 3 .pfx pfx ++ dataTurns 32 .keyIn key ++ runTurns 0#1)
  | .decode identifier =>
    .core :: .host (.write (.op 1#1)) :: .host (.write (.idLen identifier.length)) ::
      (dataTurns 66 .idIn identifier ++ runTurns 1#1)
  | .reset => [.host .reset]

end Sys2Proof.Machine
end

