-- ==== Sys2Proof/Machine/KeccakTables.lean ====
section
/-! DEFINITION. The procedures that generate the two tables of KECCAK_F1600 (spec/40_checksum.md R105, R108); the tables themselves
stand in Checksum.lean, and a statement says that they agree. -/

namespace Sys2Proof.Machine

open Sys2Proof

/-- The lane whose offset is set at step `t` of the walk from `(1, 0)` (40_checksum R105). -/
def rhoWalk : Nat → Nat × Nat
  | 0 => (1, 0)
  | t + 1 => ((rhoWalk t).2, (2 * (rhoWalk t).1 + 3 * (rhoWalk t).2) % 5)

/-- One step of the 8-bit shift register: shift left, and reduce by 0x171 when bit 8 is set (40_checksum R108). -/
def lfsrStep (v : Nat) : Nat := if (2 * v).testBit 8 then (2 * v) ^^^ 0x171 else 2 * v

/-- The shift register after `t` steps from 0x01 (40_checksum R108). -/
def lfsr : Nat → Nat
  | 0 => 0x01
  | t + 1 => lfsrStep (lfsr t)

/-- `rc(t)`: the low bit after `t mod 255` steps (40_checksum R108). -/
def rcBit (t : Nat) : Bool := (lfsr (t % 255)).testBit 0

end Sys2Proof.Machine
end

