-- ==== Sys2Proof/Machine/Parallel.lean ====
section
/-! DEFINITION. The checks of a command evaluated side by side, as the condition flags of the error multiplexer
(spec/44_compare_errmux.md R171, R174; the parser's flags in the positional form of spec/43_parser.md R157). What the units
downstream of a failed check are fed is open: an argument here. -/

namespace Sys2Proof.Machine

open Sys2Proof

/-- `sep[i]`: byte `i` of the identifier is the separator (43_parser R157). -/
def sepAt (id : Bytes 66) (i : Fin 66) : Bool := id[i] == Config.separator

/-- The positions `Q` of the separators of a well-formed identifier (43_parser R157). -/
def sepPositions : List (Fin 66) := [3, 12, 21, 30, 39, 48, 57]

/-- The number of separator bytes (43_parser R154). -/
def sepCount (id : Bytes 66) : Nat := id.toList.countP fun c => c == Config.separator

/-- The first token is 3 bytes long (43_parser R153). -/
def firstTokenIs3 (id : Bytes 66) : Bool := sepAt id 3 && !sepAt id 0 && !sepAt id 1 && !sepAt id 2

/-- The separators stand exactly at `Q` (43_parser R157). -/
def sepsInPlace (id : Bytes 66) : Bool :=
  (List.finRange 66).all fun i => sepAt id i == decide (i ∈ sepPositions)

/-- The prefix by position (43_parser R157). -/
def prefixSlice (id : Bytes 66) : Bytes 3 := memRead id 0 3 (by omega)

/-- The payload string by position: character `i` stands at `4 + i + (i div 8)` (30_encoding R71). -/
def payloadSlice (id : Bytes 66) : Bytes 56 := Vector.ofFn fun i => id[4 + i.val + i.val / 8]

/-- The flags of ENCODE (44_compare_errmux R171); those of the DECODE path are arbitrary. -/
def encodeFlags (np nk : Nat) (other : ErrFlags) : ErrFlags :=
  { other with fPlE := np ≠ Config.prefixLength, fIl := nk ≠ Config.publicKeyLength }

/-- The flags of DECODE (44_compare_errmux R171), for any bytes `id` on the parser's inputs, any bytes `s56` on those of B32D and
any prefix and payload on those of CSUM and CMP; those of the ENCODE path are arbitrary. -/
def decodeFlags (n : Nat) (id : Bytes 66) (s56 : Bytes 56) (p0 : Bytes 3) (pay : Bytes 35) (other : ErrFlags) : ErrFlags :=
  { other with
    fIdl := n ≠ Config.identifierLength
    fPlD := !firstTokenIs3 id
    fSc  := sepCount id ≠ Config.separatorCount
    fSl  := !sepsInPlace id
    fEnc := (firstBad s56).isSome
    fCs  := !cscmp (payloadChecksum pay) (csum3 (hashInput (payloadKey pay) (upcase3 p0))) }

/-- The position output of B32D (44_compare_errmux R175). -/
def badPosition (s56 : Bytes 56) : BitVec 6 :=
  match firstBad s56 with
  | some i => BitVec.ofNat 6 i.val
  | none => 0#6

end Sys2Proof.Machine
end

