-- ==== Sys2Proof/Machine/System.lean ====
section
/-! DEFINITION. Several cores (spec/10_state.md R20, spec/60_exceptions.md R226): each has its own state, nothing is shared, and one
of them moves at a time. -/

namespace Sys2Proof.Machine

open Sys2Proof

/-- What has become of each core; a core whose last step was refused has stopped. -/
abbrev System := List (Host.Outcome State Fault Refusal)

/-- One step of a core that has not stopped. -/
def advance : Host.Outcome State Fault Refusal → Host.Outcome State Fault Refusal
  | .next s => step s
  | .fault r => .fault r
  | .refused r => .refused r

/-- `n` steps of one core. -/
def advanceN : Nat → Host.Outcome State Fault Refusal → Host.Outcome State Fault Refusal
  | 0, o => o
  | n + 1, o => advanceN n (advance o)

/-- Core `k` takes a step; the others do not move (60_exceptions R226). -/
def System.stepAt (y : System) (k : Nat) : System := y.modify k advance

/-- The cores take steps in the order of the schedule. -/
def System.run (y : System) : List Nat → System
  | [] => y
  | k :: ks => (System.stepAt y k).run ks

/-- A system of `N_INST` cores after reset (00_scope R8). Core `k` draws its free bytes from source `k`, so that nothing relates what two
cores return for "any value" (60_exceptions R226, 70_reset_and_hazards R245; log 23, DESIGN CHOICE). -/
def System.reset : System := (List.range Config.nInst).map fun k => .next { State.reset with freeSource := k }

end Sys2Proof.Machine
end

