-- ==== Sys2Proof/Safety.lean ====
section
/-! DEFINITION. What counts as a safe state and a safe run, in the terms the statements use (spec/10_state.md R24, R25, R30;
spec/60_exceptions.md R229, R231; spec/70_reset_and_hazards.md R244). -/

namespace Sys2Proof.Machine

open Sys2Proof

/-- A length register holds a number of `LENW` bits (30_encoding R78). -/
def lenFits : Slot Nat → Prop
  | .noValue => True
  | .value n => n < 2 ^ Config.lenw

/-- The length registers hold numbers of `LENW` bits. -/
def Inputs.lensFit (r : Inputs) : Prop := lenFits r.pfxLen ∧ lenFits r.keyLen ∧ lenFits r.idLen

/-- The outcomes a command can end in (60_exceptions R231). -/
def mayEndIn (op : BitVec 1) (err : BitVec 3) : Prop :=
  if op = 0#1 then err = 0#3 ∨ err = 1#3 ∨ err = 2#3 else err ≠ 2#3

/-- What the output register of the last command holds at `DONE` = 1 (70_reset_and_hazards R244). -/
def outputAgrees {α : Type} (err : BitVec 3) (c : Content α) : Prop :=
  if err = 0#3 then ∃ v, c = .value v else c = .any

/-- The invariant of the core. -/
structure State.Inv (s : State) : Prop where
  /-- "`BUSY` and `DONE` are never both 1" (10_state R24) -/
  notBoth : ¬ (s.busy = true ∧ s.done = true)
  /-- `ERR_POS` is 0..55, and 0 unless `ERR` = 6 (10_state R24) -/
  posRange : s.errPos.toNat < 56
  posOnly : s.errPos ≠ 0#6 → s.err = 6#3
  /-- an operation in flight reads only registers that hold a value (10_state R30) -/
  inFlight : s.busy = true → s.req.readable = true
  /-- the length fields are `LENW` bits wide (30_encoding R78) -/
  lens : s.inp.lensFit
  reqLens : s.req.lensFit
  /-- neither busy nor done: nothing has completed since reset (10_state R24, R31) -/
  fresh : s.busy = false → s.done = false →
    s.err = 0#3 ∧ s.errPos = 0#6 ∧ s.idOut = .noValue ∧ s.keyOut = .noValue
  /-- the last completed operation ended as its command may, and its output register is as R244 says; the model keeps `REQ` after
  COMPLETE, so the last command is `REQ.OP` (log 5, DESIGN CHOICE) -/
  outcome : s.done = true → ∃ o, s.req.op = .value o ∧ mayEndIn o s.err ∧
    (if o = 0#1 then outputAgrees s.err s.idOut else outputAgrees s.err s.keyOut)

/-- A request of ENCODE with both lengths right (20_memory R55). -/
def Inputs.encodeRequest (r : Inputs) (pfx : Bytes 3) (key : Bytes 32) : Prop :=
  r.pfxLen = .value 3 ∧ r.keyLen = .value 32 ∧ r.pfx = .value pfx ∧ r.keyIn = .value key

/-- None of the bytes is the separator 0x5F (45_operations R197). -/
def noSeparator {n : Nat} (p : Bytes n) : Prop := ∀ i : Fin n, p[i] ≠ Config.separator

/-- The seven 8-byte slices of a payload string (30_encoding R80). -/
def segmentsOf (s : Bytes 56) : List (List Byte) := (List.range 7).map fun j => (s.toList.drop (8 * j)).take 8

/-- The table of 10_state R31, but for `REQ`, which it calls meaningless. -/
structure State.AsAfterReset (s : State) : Prop where
  busy   : s.busy = false
  done   : s.done = false
  err    : s.err = 0#3
  errPos : s.errPos = 0#6
  op     : s.inp.op = .noValue
  pfxLen : s.inp.pfxLen = .noValue
  pfx    : s.inp.pfx = .noValue
  keyLen : s.inp.keyLen = .noValue
  keyIn  : s.inp.keyIn = .noValue
  idLen  : s.inp.idLen = .noValue
  idIn   : s.inp.idIn = .noValue
  idOut  : s.idOut = .noValue
  keyOut : s.keyOut = .noValue

/-- The next turn is the core's: its own, or, with no turn left, what a busy core does by itself. -/
def State.isCoreTurn (s : State) : Prop := s.agenda = [] ∨ ∃ rest, s.agenda = .core :: rest

/-- The next turn is the HOST's action `a`. -/
def State.isHostTurn (s : State) (a : HostAction) : Prop := ∃ rest, s.agenda = .host a :: rest

/-- The state with its first turn taken off. -/
def State.popTurn (s : State) : State := { s with agenda := s.agenda.tail }

/-- The two states have the same core: they differ in the model's own fields alone. -/
def State.sameCore (s t : State) : Prop :=
  t.inp = s.inp ∧ t.req = s.req ∧ t.busy = s.busy ∧ t.done = s.done ∧ t.err = s.err ∧ t.errPos = s.errPos ∧
    t.idOut = s.idOut ∧ t.keyOut = s.keyOut

/-- The next turn is a RESET. -/
def isResetTurn : Turn → Bool
  | .core => false
  | .host .reset => true
  | .host (.write _) | .host .start | .host (.read _) | .host (.readResult _) => false

end Sys2Proof.Machine
end

