-- ==== Sys2Proof/Certificates/Slice0/Obligations.lean ====
section
/-! DEFINITION. The statements for the provers, from the numbered rules of spec/. -/

open Sys2Proof Sys2Proof.Machine

/-! ### Encodings -/

/-- 30_encoding R84: the encoding of every row is read back as the row, and an item that decodes to a row is that row's encoding:
no item has two readings and no bit of it is dropped. -/
def Obligations.DecodeAndEncodeAgree : Prop :=
  (∀ i : Instr, (encode i).wf = true ∧ decode (encode i) = .ok i) ∧
  ∀ (f : Item) (i : Instr), decode f = .ok i → encode i = f

/-- 30_encoding R71, R74, R76, R77: a few words written out, with the boundary bytes next to the alphabet, which are rejected. -/
def Obligations.WrittenOutWordsDecode : Prop :=
  decode ⟨.cmd, 0b0#8⟩ = .ok .encode ∧ decode ⟨.cmd, 0b1#8⟩ = .ok .decode ∧ decode ⟨.cmd, 0b10#8⟩ = .error .tooWide ∧
  decode ⟨.b32sym, 0b01000001#8⟩ = .ok .symA ∧ decode ⟨.b32sym, 0b01011010#8⟩ = .ok .symZ ∧
  decode ⟨.b32sym, 0b00110010#8⟩ = .ok .sym2 ∧ decode ⟨.b32sym, 0b00110111#8⟩ = .ok .sym7 ∧
  (∀ c ∈ [0x40#8, 0x5B#8, 0x31#8, 0x38#8, 0x60#8, 0x61#8, 0x7B#8, 0x3D#8, 0x5F#8, 0xFF#8],
    decode ⟨.b32sym, c⟩ = .error .noSuchRow) ∧
  decode ⟨.idsep, 0b01011111#8⟩ = .ok .sep ∧ decode ⟨.idsep, 0x2D#8⟩ = .error .noSuchRow ∧
  decode ⟨.errcode, 0b000#8⟩ = .ok .errOK ∧ decode ⟨.errcode, 0b110#8⟩ = .ok .errInvalidEncoding ∧
  decode ⟨.errcode, 0b111#8⟩ = .ok .errChecksumMismatch ∧ decode ⟨.errcode, 0b1000#8⟩ = .error .tooWide

/-- 30_encoding R74: the symbol table. `sym` and `val` by their formulas, inverse to each other; every B32SYM row is the character
of its value, every value has its row, and a byte without a value is no row. -/
def Obligations.SymbolTable : Prop :=
  (∀ v : BitVec 5, (sym v).toNat = if v.toNat ≤ 25 then 0x41 + v.toNat else 0x32 + (v.toNat - 26)) ∧
  (∀ c : Byte, val c =
    if 0x41 ≤ c.toNat ∧ c.toNat ≤ 0x5A then some (BitVec.ofNat 5 (c.toNat - 0x41))
    else if 0x32 ≤ c.toNat ∧ c.toNat ≤ 0x37 then some (BitVec.ofNat 5 (c.toNat - 0x32 + 26))
    else none) ∧
  (∀ v : BitVec 5, val (sym v) = some v) ∧
  (∀ (c : Byte) (v : BitVec 5), val c = some v → sym v = c) ∧
  (∀ (i : Instr) (v : BitVec 5), symValue i = some v → encode i = ⟨.b32sym, sym v⟩) ∧
  (∀ v : BitVec 5, ∃ i, symValue i = some v ∧ decode ⟨.b32sym, sym v⟩ = .ok i) ∧
  ∀ c : Byte, val c = none → decode ⟨.b32sym, c⟩ = .error .noSuchRow

/-- 30_encoding R77, 60_exceptions R210: each error kind has the code of its row, kinds of different rows have different codes, no
kind has the code of OK, and only InvalidEncoding has a datum, its position. -/
def Obligations.ErrorKindsHaveTheirCodes : Prop :=
  (∀ k : ErrKind, decode (errItem (errCode k)) = .ok (errRow k) ∧ errCode k ≠ 0#3) ∧
  (∀ k k' : ErrKind, errCode k = errCode k' → errRow k = errRow k') ∧
  (∀ pos : Fin 56, (errDatum (.invalidEncoding pos)).toNat = pos.val) ∧
  ∀ k : ErrKind, errDatum k ≠ 0#6 → ∃ pos, k = .invalidEncoding pos

/-! ### The step -/

/-- 45_operations R193 to R195, 30_encoding R76: a step runs the row it fetches. On the core's turn a busy core runs the command that
`REQ.OP` is; the HOST's write of a character runs the character's row, and its read of `ERR` the row that `ERR` is. An idle core's turn
changes nothing. (Which field each format is fetched from: log 6, 7, 15.) -/
def Obligations.StepRunsTheDecodedRow : Prop :=
  (∀ (s : State) (o : BitVec 1) (i : Instr), s.isCoreTurn → s.busy = true → s.req.op = .value o → decode (opItem o) = .ok i →
    step s = exec i s.popTurn) ∧
  (∀ s : State, s.isCoreTurn → s.busy = false → step s = .next s.popTurn) ∧
  (∀ (s : State) (k : Fin 66) (c : Byte) (i : Instr), s.isHostTurn (.write (.idChar k c)) → decodeChar c = .ok i →
    step s = exec i { s.popTurn with idSel := k }) ∧
  ∀ (s : State) (i : Instr), s.isHostTurn (.read .err) → decode (errItem s.err) = .ok i → step s = exec i s.popTurn

/-- The model's own (log 13, 16): the word of a row, placed with `withFetchWord`, is what the next step runs, and the turns
that were there are left. -/
def Obligations.PlacedWordRunsNext : Prop :=
  ∀ (s : State) (nbits w : Nat) (i : Instr), decodeTableWord nbits w = some i →
    step (s.withFetchWord nbits w) = exec i { s.withFetchWord nbits w with agenda := s.agenda }

/-! ### Reset -/

/-- 10_state R31: the state after the RESET event, from any state, and the model's initial state. -/
def Obligations.ResetLeavesTheTable : Prop :=
  State.reset.AsAfterReset ∧
  ∀ s : State, s.isHostTurn .reset → ∃ t, step s = .next t ∧ t.AsAfterReset

/-- 70_reset_and_hazards R240: RESET is the only turn that abandons an operation in flight. After it the core's turn does nothing; any
other turn of the HOST leaves the operation in flight. -/
def Obligations.OnlyResetAbandonsAnOperation : Prop :=
  (∀ s : State, s.isHostTurn .reset → ∃ t, step s = .next t ∧ ∀ rest, step { t with agenda := .core :: rest } = .next { t with agenda := rest }) ∧
  ∀ (s : State) (a : HostAction), s.busy = true → s.isHostTurn a → a ≠ .reset →
    ∃ t, step s = .next t ∧ t.busy = true ∧ t.req = s.req

/-! ### START and the registers a command reads -/

/-- 45_operations R192, 70_reset_and_hazards R246: START while `BUSY` = 1 changes nothing; otherwise it samples all seven input
registers, sets `BUSY` and clears `DONE`, and changes nothing else; it is refused when the command reads a register that holds no
value (10_state R30). That a data register holds a value as soon as some of its bytes are written is the model's reading (log 2). -/
def Obligations.StartSamplesOrIsIgnored : Prop :=
  ∀ s : State, s.isHostTurn .start →
    (s.busy = true → step s = .next s.popTurn) ∧
    (s.busy = false → s.inp.readable = true → step s = .next { s.popTurn with req := s.inp, busy := true, done := false }) ∧
    (s.busy = false → s.inp.readable = false → step s = .refused .unwrittenInput)

/-- 20_memory R55, 70_reset_and_hazards R248: a length register is read only when every length checked before it was right, a data
register only when all lengths of its command are right. A register that nothing has written holds no value (10_state R30); that a data
register holds one as soon as a byte of it is written (45_operations R194) is the model's reading (log 2). -/
def Obligations.ReadSetsAreShortCircuit : Prop :=
  ∀ r : Inputs, r.readable = true ↔
    (r.op = .value 0#1 ∧ ∃ np, r.pfxLen = .value np ∧ (np = 3 → ∃ nk, r.keyLen = .value nk ∧
      (nk = 32 → (∃ v, r.pfx = .value v) ∧ ∃ v, r.keyIn = .value v))) ∨
    (r.op = .value 1#1 ∧ ∃ n, r.idLen = .value n ∧ (n = 66 → ∃ v, r.idIn = .value v))

/-! ### The commands -/

/-- 45_operations R190, R193: ENCODE on every request it reads, with the whole next state: everything not named is unchanged. That `REQ`
is among what is unchanged is the model's choice (log 5). -/
def Obligations.EncodeCompletes : Prop :=
  ∀ s : State,
    (∀ np, s.req.pfxLen = .value np → np ≠ 3 →
      exec .encode s = .next { s with idOut := .any, err := 1#3, errPos := 0#6, busy := false, done := true }) ∧
    (∀ nk, s.req.pfxLen = .value 3 → s.req.keyLen = .value nk → nk ≠ 32 →
      exec .encode s = .next { s with idOut := .any, err := 2#3, errPos := 0#6, busy := false, done := true }) ∧
    ∀ (pfx : Bytes 3) (key : Bytes 32), s.req.encodeRequest pfx key →
      exec .encode s = .next { s with
        idOut := .value (assemble (upcase3 pfx) (b32enc (payload key (csum3 (hashInput key (upcase3 pfx)))))),
        err := 0#3, errPos := 0#6, busy := false, done := true }

/-- 45_operations R191, R193: DECODE on every request it reads, with the whole next state: everything not named is unchanged. That `REQ`
is among what is unchanged is the model's choice (log 5). -/
def Obligations.DecodeCompletes : Prop :=
  ∀ s : State,
    (∀ n, s.req.idLen = .value n → n ≠ 66 →
      exec .decode s = .next { s with keyOut := .any, err := 3#3, errPos := 0#6, busy := false, done := true }) ∧
    ∀ id : Bytes 66, s.req.idLen = .value 66 → s.req.idIn = .value id →
      (∀ k, parse 66 id = .error k →
        exec .decode s = .next { s with keyOut := .any, err := errCode k, errPos := 0#6, busy := false, done := true }) ∧
      (∀ t pos, parse 66 id = .ok t → b32dec t.s56 = .error pos →
        exec .decode s =
          .next { s with keyOut := .any, err := 6#3, errPos := BitVec.ofNat 6 pos.val, busy := false, done := true }) ∧
      (∀ t pay, parse 66 id = .ok t → b32dec t.s56 = .ok pay →
        payloadChecksum pay ≠ csum3 (hashInput (payloadKey pay) (upcase3 t.p0)) →
        exec .decode s = .next { s with keyOut := .any, err := 7#3, errPos := 0#6, busy := false, done := true }) ∧
      ∀ t pay, parse 66 id = .ok t → b32dec t.s56 = .ok pay →
        payloadChecksum pay = csum3 (hashInput (payloadKey pay) (upcase3 t.p0)) →
        exec .decode s =
          .next { s with keyOut := .value (payloadKey pay), err := 0#3, errPos := 0#6, busy := false, done := true }

/-- 60_exceptions R229 for the commands, 45_operations R193: ENCODE and DECODE go on from every state, and what they leave is the command's
result on operands that are the request's registers wherever those hold a value; nothing else changes. That `REQ` keeps its value (log 5)
and that a register which holds no value, which START lets no request read (10_state R30), is read as unstated contents (log 20) are the
model's choices. -/
def Obligations.CommandsCompleteOnEveryRequest : Prop :=
  (∀ s : State, ∃ np pfx nk key,
    (∀ n, s.req.pfxLen = .value n → np = n) ∧ (∀ v, s.req.pfx = .value v → pfx = v) ∧
    (∀ n, s.req.keyLen = .value n → nk = n) ∧ (∀ v, s.req.keyIn = .value v → key = v) ∧
    exec .encode s = .next
      (match encodeCmd np pfx nk key with
      | .ok id => { s with idOut := .value id, err := 0#3, errPos := 0#6, busy := false, done := true }
      | .error e => { s with idOut := .any, err := errCode e, errPos := errDatum e, busy := false, done := true })) ∧
  ∀ s : State, ∃ n id,
    (∀ m, s.req.idLen = .value m → n = m) ∧ (∀ v, s.req.idIn = .value v → id = v) ∧
    exec .decode s = .next
      (match decodeCmd n id with
      | .ok key => { s with keyOut := .value key, err := 0#3, errPos := 0#6, busy := false, done := true }
      | .error e => { s with keyOut := .any, err := errCode e, errPos := errDatum e, busy := false, done := true })

/-- 60_exceptions R231, which the spec marks as derived: the outcomes of each command, all of them reachable, and the values of
`ERR_POS`. -/
def Obligations.OutcomeTable : Prop :=
  (∀ s t : State, exec .encode s = .next t → t.err = 0#3 ∨ t.err = 1#3 ∨ t.err = 2#3) ∧
  (∀ s t : State, exec .decode s = .next t → t.err ≠ 2#3) ∧
  (∀ s t : State, exec .encode s = .next t ∨ exec .decode s = .next t → t.errPos ≠ 0#6 → t.err = 6#3) ∧
  (∀ c : BitVec 3, c = 0#3 ∨ c = 1#3 ∨ c = 2#3 → ∃ s t : State, exec .encode s = .next t ∧ t.err = c) ∧
  (∀ c : BitVec 3, c ≠ 2#3 → ∃ s t : State, exec .decode s = .next t ∧ t.err = c) ∧
  ∀ pos : Fin 56, ∃ s t : State, exec .decode s = .next t ∧ t.err = 6#3 ∧ t.errPos.toNat = pos.val

/-- 44_compare_errmux R171 to R175, 43_parser R157: the checks evaluated side by side and put through the error multiplexer give the status of the
sequential command, whatever the units downstream of a failed check are fed. -/
def Obligations.ErrmuxGivesTheSequentialStatus : Prop :=
  (∀ (np nk : Nat) (pfx : Bytes 3) (key : Bytes 32) (other : ErrFlags) (pos : BitVec 6),
    errmux 0#1 (encodeFlags np nk other) pos = statusOf (encodeCmd np pfx nk key)) ∧
  ∀ (n : Nat) (id : Bytes 66) (s56 : Bytes 56) (p0 : Bytes 3) (pay : Bytes 35) (other : ErrFlags),
    (∀ t, parse n id = .ok t → s56 = t.s56 ∧ p0 = t.p0 ∧ ∀ q, b32dec t.s56 = .ok q → pay = q) →
    errmux 1#1 (decodeFlags n id s56 p0 pay other) (badPosition s56) = statusOf (decodeCmd n id)

/-- 10_state R29, R22: what a command leaves in the status and in its output register is a function of the registers it reads in its
request, and of nothing else in the state, where all of those hold a value (START refuses a request that reads one which does not, 10_state R30). -/
def Obligations.ResultsDependOnTheReadRegistersAlone : Prop :=
  (∀ s t s' : State, t.req.pfxLen = s.req.pfxLen → t.req.pfx = s.req.pfx → t.req.keyLen = s.req.keyLen → t.req.keyIn = s.req.keyIn →
    s.req.encodeReadable = true → exec .encode s = .next s' →
    ∃ t', exec .encode t = .next t' ∧ t'.err = s'.err ∧ t'.errPos = s'.errPos ∧ t'.idOut = s'.idOut) ∧
  ∀ s t s' : State, t.req.idLen = s.req.idLen → t.req.idIn = s.req.idIn →
    s.req.decodeReadable = true → exec .decode s = .next s' →
    ∃ t', exec .decode t = .next t' ∧ t'.err = s'.err ∧ t'.errPos = s'.errPos ∧ t'.keyOut = s'.keyOut

/-- 20_memory R57, 10_state R29: running the same command twice with the same inputs gives the same `ERR`, the same `ERR_POS` and the same
output register, whatever else the two states hold: a START on an idle core, then the core's turn. (Turns as data: log 3.) -/
def Obligations.SameInputsGiveTheSameResult : Prop :=
  ∀ s t s' : State, s.busy = false → t.busy = false → t.inp = s.inp →
    (∃ rest, s.agenda = .host .start :: .core :: rest) → (∃ rest, t.agenda = .host .start :: .core :: rest) →
    advanceN 2 (.next s) = .next s' →
    ∃ t', advanceN 2 (.next t) = .next t' ∧ t'.err = s'.err ∧ t'.errPos = s'.errPos ∧
      ((s.inp.op = .value 0#1 ∧ t'.idOut = s'.idOut) ∨ (s.inp.op = .value 1#1 ∧ t'.keyOut = s'.keyOut))

/-! ### The rows that are characters and error codes -/

/-- The rows SYM_A to SYM_Z, SYM_2 to SYM_7 and SEP, which are the rows of formats B32SYM and IDSEP (30_encoding R71, R74): each writes its byte
to the byte of `ID_IN` the HOST addresses, and changes nothing else (45_operations R194). That a row of these formats runs as such a
write is the model's choice (log 6), and so is it that the other bytes are unstated where `ID_IN` held no value (log 2). -/
def Obligations.CharacterRowsWriteTheirByte : Prop :=
  ∀ (i : Instr) (s : State), (encode i).format = .b32sym ∨ (encode i).format = .idsep →
    ∃ old : Bytes 66, (∀ v, s.inp.idIn = .value v → old = v) ∧
      exec i s = .next { s with inp := { s.inp with idIn := .value (old.set s.idSel.val (encode i).bits) } }

/-- The rows ERR_OK, ERR_InvalidPrefixLength, ERR_InvalidInputLength, ERR_InvalidIdentifierLength, ERR_InvalidDataSegmentCount,
ERR_InvalidDataSegmentLength, ERR_InvalidEncoding and ERR_ChecksumMismatch, which are the rows of format ERRCODE (30_encoding R77): each
delivers its code to the HOST and changes nothing in the core (45_operations R195). That a row of this format runs as such a read is
the model's choice (log 7). -/
def Obligations.ErrorRowsDeliverTheirCode : Prop :=
  ∀ (i : Instr) (s : State), (encode i).format = .errcode →
    exec i s = .next { s with hostLog := .err ((encode i).bits.setWidth 3) :: s.hostLog }

/-! ### HOST_WRITE and HOST_READ -/

/-- 45_operations R194, 10_state R22: a HOST_WRITE changes the register written and nothing else in the core; a length register takes the
true length, saturated; a data register takes the bytes written and keeps the others. The byte that a character write addresses becomes
the addressed one (the model's own field and choice, log 6); the bytes not written of a register that held no value are unstated (log 2,
the model's choice). A write of no byte, which is no HOST_WRITE, leaves its register as it is. -/
def Obligations.HostWriteChangesOneRegister : Prop :=
  ∀ (s : State) (w : HostWrite), s.isHostTurn (.write w) →
    ∃ (p : Bytes 3) (k : Bytes 32) (d : Bytes 66),
      (∀ v, s.inp.pfx = .value v → p = v) ∧ (∀ v, s.inp.keyIn = .value v → k = v) ∧ (∀ v, s.inp.idIn = .value v → d = v) ∧
      step s = .next { s.popTurn with
        idSel :=
          match w with
          | .idChar i _ => i
          | .op _ | .pfxLen _ | .pfx _ | .keyLen _ | .keyIn _ | .idLen _ | .idIn _ => s.idSel
        inp :=
          match w with
          | .op v => { s.inp with op := .value v }
          | .pfxLen n => { s.inp with pfxLen := .value (min n (2 ^ Config.lenw - 1)) }
          | .pfx m => if w.wf then { s.inp with pfx := .value (Vector.ofFn fun i => m[i].getD p[i]) } else s.inp
          | .keyLen n => { s.inp with keyLen := .value (min n (2 ^ Config.lenw - 1)) }
          | .keyIn m => if w.wf then { s.inp with keyIn := .value (Vector.ofFn fun i => m[i].getD k[i]) } else s.inp
          | .idLen n => { s.inp with idLen := .value (min n (2 ^ Config.lenw - 1)) }
          | .idIn m => if w.wf then { s.inp with idIn := .value (Vector.ofFn fun i => m[i].getD d[i]) } else s.inp
          | .idChar i c => { s.inp with idIn := .value (d.set i.val c) } }

/-- 10_state R22, 92_eei_decisions D5: saturation keeps every wrong length wrong and every right length right. -/
def Obligations.SaturationKeepsTheLengthChecks : Prop :=
  7 ≤ Config.lenw ∧
  ∀ n : Nat, saturate n = min n (2 ^ Config.lenw - 1) ∧
    (saturate n = 3 ↔ n = 3) ∧ (saturate n = 32 ↔ n = 32) ∧ (saturate n = 66 ↔ n = 66)

/-- 45_operations R195, 10_state R30: a HOST_READ delivers the value of the port and leaves the core as it is; an output register without
a fixed content delivers free bytes, and the next such read draws others (log 8, 23). True for every value of `freeCount` and
`freeSource`. -/
def Obligations.HostReadDeliversAndDisturbsNothing : Prop :=
  ∀ (s : State) (p : Port), s.isHostTurn (.read p) →
    ∃ v k, step s = .next { s.popTurn with hostLog := v :: s.hostLog, freeCount := k } ∧
      match p with
      | .busy => v = .busy s.busy
      | .done => v = .done s.done
      | .err => v = .err s.err
      | .errPos => v = .errPos s.errPos
      | .idOut =>
        (∀ id, s.idOut = .value id → v = .idOut id) ∧
        (s.idOut = .any ∨ s.idOut = .noValue → k = s.freeCount + 66 ∧
          v = .idOut (Vector.ofFn fun i => Config.freeByte s.freeSource (s.freeCount + i.val)))
      | .keyOut =>
        (∀ key, s.keyOut = .value key → v = .keyOut key) ∧
        (s.keyOut = .any ∨ s.keyOut = .noValue → k = s.freeCount + 32 ∧
          v = .keyOut (Vector.ofFn fun i => Config.freeByte s.freeSource (s.freeCount + i.val)))

/-- 70_reset_and_hazards R252, which the spec marks as derived: what persists across each step. Across a HOST_WRITE that is everything but
the register written; the RESET clause leaves out `REQ`, which is meaningless then (10_state R31). -/
def Obligations.WhatPersistsAcrossEachStep : Prop :=
  (∀ s t : State, exec .encode s = .next t → t.inp = s.inp ∧ t.keyOut = s.keyOut) ∧
  (∀ s t : State, exec .decode s = .next t → t.inp = s.inp ∧ t.idOut = s.idOut) ∧
  (∀ s t : State, s.isHostTurn .start → step s = .next t →
    t.inp = s.inp ∧ t.err = s.err ∧ t.errPos = s.errPos ∧ t.idOut = s.idOut ∧ t.keyOut = s.keyOut) ∧
  (∀ s s' t t' : State, s.isHostTurn .reset → s'.isHostTurn .reset → step s = .next t → step s' = .next t' →
    t'.inp = t.inp ∧ t'.busy = t.busy ∧ t'.done = t.done ∧ t'.err = t.err ∧ t'.errPos = t.errPos ∧ t'.idOut = t.idOut ∧
      t'.keyOut = t.keyOut) ∧
  (∀ (s t : State) (w : HostWrite), s.isHostTurn (.write w) → step s = .next t →
    t.req = s.req ∧ t.busy = s.busy ∧ t.done = s.done ∧ t.err = s.err ∧ t.errPos = s.errPos ∧ t.idOut = s.idOut ∧ t.keyOut = s.keyOut ∧
      match w with
      | .op _ => t.inp = { s.inp with op := t.inp.op }
      | .pfxLen _ => t.inp = { s.inp with pfxLen := t.inp.pfxLen }
      | .pfx m => t.inp = { s.inp with pfx := t.inp.pfx } ∧
        ∀ v, s.inp.pfx = .value v → ∃ v', t.inp.pfx = .value v' ∧ ∀ i : Fin 3, m[i] = none → v'[i] = v[i]
      | .keyLen _ => t.inp = { s.inp with keyLen := t.inp.keyLen }
      | .keyIn m => t.inp = { s.inp with keyIn := t.inp.keyIn } ∧
        ∀ v, s.inp.keyIn = .value v → ∃ v', t.inp.keyIn = .value v' ∧ ∀ i : Fin 32, m[i] = none → v'[i] = v[i]
      | .idLen _ => t.inp = { s.inp with idLen := t.inp.idLen }
      | .idIn m => t.inp = { s.inp with idIn := t.inp.idIn } ∧
        ∀ v, s.inp.idIn = .value v → ∃ v', t.inp.idIn = .value v' ∧ ∀ i : Fin 66, m[i] = none → v'[i] = v[i]
      | .idChar k _ => t.inp = { s.inp with idIn := t.inp.idIn } ∧
        ∀ v, s.inp.idIn = .value v → ∃ v', t.inp.idIn = .value v' ∧ ∀ i : Fin 66, i ≠ k → v'[i] = v[i]) ∧
  (∀ (s t : State) (p : Port), s.isHostTurn (.read p) → step s = .next t → s.sameCore t) ∧
  ∀ (s t : State) (op : BitVec 1), s.isHostTurn (.readResult op) → step s = .next t → s.sameCore t

/-! ### The units -/

/-- 42_assembler R140: UPCASE3 on every byte; it is idempotent, produces no lowercase letter, and neither produces nor removes the
separator. -/
def Obligations.UpcaseFoldsAsciiLettersOnly : Prop :=
  ∀ (p : Bytes 3) (i : Fin 3),
    (upcase3 p)[i] = (if 0x61 ≤ p[i].toNat ∧ p[i].toNat ≤ 0x7A then BitVec.ofNat 8 (p[i].toNat - 0x20) else p[i]) ∧
    (upcase3 (upcase3 p))[i] = (upcase3 p)[i] ∧
    ¬ (0x61 ≤ ((upcase3 p)[i]).toNat ∧ ((upcase3 p)[i]).toNat ≤ 0x7A) ∧
    ((upcase3 p)[i] = 0x5F#8 ↔ p[i] = 0x5F#8)

/-- 40_checksum R109: the checksum is the first three bytes of the digest, in order. -/
def Obligations.ChecksumIsTheFirstThreeBytes : Prop :=
  ∀ (m : Bytes 35) (i : Fin 3), (csum3 m)[i] = (sha3_256_35 m)[i.val]

/-- 40_checksum R102: LANES and BYTES, their inverse law, the lanes of the one block, and the checksum in the low bits of `A'[0][0]`. -/
def Obligations.LanesAndBytes : Prop :=
  (∀ (B : Bytes 200) (i : Fin 25), ((lanes B)[i]).toNat =
    ((List.finRange 8).map fun j => (B[8 * i.val + j.val]).toNat * 2 ^ (8 * j.val)).sum) ∧
  (∀ (A : Lanes) (i : Fin 25) (j : Fin 8), (lanesToBytes A)[8 * i.val + j.val] = (A[i] >>> (8 * j.val)).setWidth 8) ∧
  (∀ B : Bytes 200, lanesToBytes (lanes B) = B) ∧
  (∀ m : Bytes 35,
    (∀ i : Fin 32, (lanesToBytes (lanes (sha3Block m)))[i.val] = m[i.val]) ∧
    ((lanes (sha3Block m))[4]).toNat = m[32].toNat + m[33].toNat * 2 ^ 8 + m[34].toNat * 2 ^ 16 + 0x06 * 2 ^ 24 ∧
    (lanes (sha3Block m))[16] = 0x8000000000000000#64 ∧
    ∀ i : Fin 25, 4 < i.val → i.val ≠ 16 → (lanes (sha3Block m))[i] = 0#64) ∧
  (∀ (m : Bytes 35) (i : Fin 32), (sha3_256_35 m)[i] = (lanesToBytes (keccakF1600 (lanes (sha3Block m))))[i.val]) ∧
  ∀ (m : Bytes 35) (i : Fin 3), (csum3 m)[i] = ((keccakF1600 (lanes (sha3Block m)))[0]).extractLsb' (8 * i.val) 8

/-- 40_checksum R103, R104, R106, R107: THETA, PI (as "the lane at (x, y) goes to (y, (2x + 3y) mod 5)") and CHI, lane by lane; and
KECCAK_F1600 is the 24 rounds `ir` = 0 to 23, in that order, of THETA, RHO, PI, CHI and IOTA, in that order. -/
def Obligations.KeccakStepsByLane : Prop :=
  (∀ (A : Lanes) (x y : Nat), x < 5 → y < 5 →
    laneAt (theta A) x y = laneAt A x y ^^^
      ((laneAt A (x + 4) 0 ^^^ laneAt A (x + 4) 1 ^^^ laneAt A (x + 4) 2 ^^^ laneAt A (x + 4) 3 ^^^ laneAt A (x + 4) 4) ^^^
        (laneAt A (x + 1) 0 ^^^ laneAt A (x + 1) 1 ^^^ laneAt A (x + 1) 2 ^^^ laneAt A (x + 1) 3 ^^^ laneAt A (x + 1) 4).rotateLeft 1) ∧
    laneAt (piStep A) y ((2 * x + 3 * y) % 5) = laneAt A x y ∧
    laneAt (chi A) x y = laneAt A x y ^^^ (~~~ laneAt A (x + 1) y &&& laneAt A (x + 2) y)) ∧
  (∀ (A : Lanes) (ir : Nat), keccakRound A ir = iota (chi (piStep (rho (theta A)))) ir) ∧
  ∀ A : Lanes, keccakF1600 A = (List.range 24).foldl (fun B ir => iota (chi (piStep (rho (theta B)))) ir) A

/-- 40_checksum R105, R108: RHO and IOTA lane by lane, and their tables as the generating procedures give them. -/
def Obligations.KeccakTablesAreGenerated : Prop :=
  (∀ (A : Lanes) (x y : Nat), x < 5 → y < 5 → laneAt (rho A) x y = (laneAt A x y).rotateLeft (rhoOffset x y)) ∧
  rhoOffset 0 0 = 0 ∧
  (∀ t < 24, rhoOffset (rhoWalk t).1 (rhoWalk t).2 = ((t + 1) * (t + 2) / 2) % 64) ∧
  (∀ (A : Lanes) (ir : Nat), ir < 24 → (iota A ir)[0] = A[0] ^^^ roundConstant ir ∧ ∀ i : Fin 25, i.val ≠ 0 → (iota A ir)[i] = A[i]) ∧
  ∀ ir < 24, ∀ b < 64, (roundConstant ir).getLsbD b = (List.range 7).any fun j => b == 2 ^ j - 1 && rcBit (j + 7 * ir)

/-- 41_base32 R126, which the spec marks as derived: the base32 encoder and decoder are inverse on the alphabet, and a bad string reports its first bad character. -/
def Obligations.Base32InverseLaws : Prop :=
  (∀ p : Bytes 35, b32dec (b32enc p) = .ok p) ∧
  (∀ s : Bytes 56, (∀ i : Fin 56, val s[i] ≠ none) → ∃ p, b32dec s = .ok p ∧ b32enc p = s ∧ ∀ q, b32dec s = .ok q → q = p) ∧
  ∀ s : Bytes 56, (¬ ∀ i : Fin 56, val s[i] ≠ none) →
    ∃ i : Fin 56, b32dec s = .error i ∧ val s[i] = none ∧ ∀ j : Fin 56, j < i → val s[j] ≠ none

/-- 41_base32 R127, which the spec marks as derived: locality. A segment depends only on its five bytes and conversely; a byte changes characters of one segment only; a
character changes at most two adjacent bytes of one group; the checksum bytes are encoded in the last five characters. -/
def Obligations.Base32Locality : Prop :=
  (∀ (p q : Bytes 35) (j : Fin 7), (∀ i : Fin 5, p[5 * j.val + i.val] = q[5 * j.val + i.val]) →
    ∀ i : Fin 8, (b32enc p)[8 * j.val + i.val] = (b32enc q)[8 * j.val + i.val]) ∧
  (∀ (s u : Bytes 56) (j : Fin 7), (∀ i : Fin 8, s[8 * j.val + i.val] = u[8 * j.val + i.val]) →
    ∀ i : Fin 5, (charsToBytes s)[5 * j.val + i.val] = (charsToBytes u)[5 * j.val + i.val]) ∧
  (∀ (p q : Bytes 35) (b : Fin 35), (∀ i : Fin 35, i ≠ b → p[i] = q[i]) →
    ∀ i : Fin 56, (b32enc p)[i] ≠ (b32enc q)[i] → i.val / 8 = b.val / 5) ∧
  (∀ (s u : Bytes 56) (c : Fin 56), (∀ i : Fin 56, i ≠ c → s[i] = u[i]) →
    ∀ b : Fin 35, (charsToBytes s)[b] ≠ (charsToBytes u)[b] →
      b.val / 5 = c.val / 8 ∧ (b.val = 5 * c.val / 8 ∨ b.val = 5 * c.val / 8 + 1)) ∧
  ∀ (key : Bytes 32) (cs cs' : Bytes 3) (i : Fin 56), (b32enc (payload key cs))[i] ≠ (b32enc (payload key cs'))[i] → 51 ≤ i.val

/-- 30_encoding R75: the bit groups of a segment, from its five bytes and back. -/
def Obligations.BitGroupsOfASegment : Prop :=
  (∀ (pay : Bytes 35) (j : Fin 7),
    let b (i : Fin 5) : Byte := pay[5 * j.val + i.val]
    let c (i : Fin 8) : BitVec 5 := payGroup pay ⟨8 * j.val + i.val, by omega⟩
    c 0 = (b 0).extractLsb' 3 5 ∧
    c 1 = (b 0).extractLsb' 0 3 ++ (b 1).extractLsb' 6 2 ∧
    c 2 = (b 1).extractLsb' 1 5 ∧
    c 3 = (b 1).extractLsb' 0 1 ++ (b 2).extractLsb' 4 4 ∧
    c 4 = (b 2).extractLsb' 0 4 ++ (b 3).extractLsb' 7 1 ∧
    c 5 = (b 3).extractLsb' 2 5 ∧
    c 6 = (b 3).extractLsb' 0 2 ++ (b 4).extractLsb' 5 3 ∧
    c 7 = (b 4).extractLsb' 0 5) ∧
  ∀ (s : Bytes 56) (j : Fin 7),
    let c (i : Fin 8) : BitVec 5 := charValue s ⟨8 * j.val + i.val, by omega⟩
    let b (i : Fin 5) : Byte := (charsToBytes s)[5 * j.val + i.val]
    b 0 = c 0 ++ (c 1).extractLsb' 2 3 ∧
    b 1 = (c 1).extractLsb' 0 2 ++ c 2 ++ (c 3).extractLsb' 4 1 ∧
    b 2 = (c 3).extractLsb' 0 4 ++ (c 4).extractLsb' 1 4 ∧
    b 3 = (c 4).extractLsb' 0 1 ++ c 5 ++ (c 6).extractLsb' 3 2 ∧
    b 4 = (c 6).extractLsb' 0 3 ++ c 7

/-- 43_parser R152: the tokens are the one way to write the text as separator-free pieces joined by the separator, empty pieces
included. -/
def Obligations.SplitIsTheOnlySplit : Prop :=
  ∀ (l t : List Byte) (ts : List (List Byte)),
    split l = (t, ts) ↔
      (∀ c ∈ t, c ≠ 0x5F#8) ∧ (∀ u ∈ ts, ∀ c ∈ u, c ≠ 0x5F#8) ∧ t ++ (ts.map fun u => 0x5F#8 :: u).flatten = l

/-- 43_parser R157, which the spec marks as derived: the positional form of PARSE. -/
def Obligations.ParseByPosition : Prop :=
  ∀ id : Bytes 66,
    (∀ t, parse 66 id = .ok t ↔
      (∀ i : Fin 66, id[i] = 0x5F#8 ↔ i ∈ sepPositions) ∧
      t.p0 = prefixSlice id ∧ t.s56 = payloadSlice id ∧
      t.seg = (List.range 7).map fun j => (id.toList.drop (4 + 9 * j)).take 8) ∧
    (parse 66 id = .error .invalidPrefixLength ↔ ¬ (id[3] = 0x5F#8 ∧ id[0] ≠ 0x5F#8 ∧ id[1] ≠ 0x5F#8 ∧ id[2] ≠ 0x5F#8)) ∧
    (parse 66 id = .error .invalidDataSegmentCount ↔
      (id[3] = 0x5F#8 ∧ id[0] ≠ 0x5F#8 ∧ id[1] ≠ 0x5F#8 ∧ id[2] ≠ 0x5F#8) ∧ (id.toList.countP fun c => c == 0x5F#8) ≠ 7) ∧
    (parse 66 id = .error .invalidDataSegmentLength ↔
      (id[3] = 0x5F#8 ∧ id[0] ≠ 0x5F#8 ∧ id[1] ≠ 0x5F#8 ∧ id[2] ≠ 0x5F#8) ∧ (id.toList.countP fun c => c == 0x5F#8) = 7 ∧
        ¬ ∀ i : Fin 66, id[i] = 0x5F#8 ↔ i ∈ sepPositions)

/-- 42_assembler R142, which the spec marks as derived: the separators of an assembled identifier, and the assembler/parser inverse law. -/
def Obligations.AssembleAndParseAreInverse : Prop :=
  ∀ (p : Bytes 3) (s : Bytes 56),
    (∀ i ∈ sepPositions, (assemble p s)[i] = 0x5F#8) ∧
    (noSeparator p → noSeparator s →
      (∀ i : Fin 66, (assemble p s)[i] = 0x5F#8 → i ∈ sepPositions) ∧
      parse 66 (assemble p s) = .ok { p0 := p, seg := segmentsOf s, s56 := s })

/-- 44_compare_errmux R170: the comparator is equality of all three bytes. -/
def Obligations.ComparatorIsEquality : Prop :=
  ∀ emb computed : Bytes 3,
    (cscmp emb computed = true ↔ emb[0] = computed[0] ∧ emb[1] = computed[1] ∧ emb[2] = computed[2]) ∧
    (cscmp emb computed = true ↔ emb = computed)

/-! ### Laws of the commands -/

/-- 45_operations R197, which the spec marks as derived: the round trip for every key and every prefix without a separator byte, and its converse: the valid
identifiers are exactly the encoder's outputs with the prefix letters in any case. -/
def Obligations.RoundTripAndConverse : Prop :=
  (∀ (p : Bytes 3) (k : Bytes 32), noSeparator p → ∃ id, encodeCmd 3 p 32 k = .ok id ∧ decodeCmd 66 id = .ok k) ∧
  ∀ (id : Bytes 66) (k : Bytes 32), decodeCmd 66 id = .ok k ↔
    ∃ p0 : Bytes 3, noSeparator p0 ∧ id = assemble p0 (b32enc (payload k (csum3 (hashInput k (upcase3 p0)))))

/-- 45_operations R199, which the spec marks as derived: case symmetry. The case of the prefix letters never matters; changing the case of letters of the segments
gives InvalidEncoding at the first of them. -/
def Obligations.CaseSymmetry : Prop :=
  (∀ (p : Bytes 3) (k : Bytes 32), encodeCmd 3 p 32 k = encodeCmd 3 (upcase3 p) 32 k) ∧
  (∀ (id id' : Bytes 66) (k : Bytes 32), decodeCmd 66 id = .ok k →
    (∀ i : Fin 66, 3 ≤ i.val → id'[i] = id[i]) → (∀ i : Fin 66, i.val < 3 → upcaseByte id'[i] = upcaseByte id[i]) →
    decodeCmd 66 id' = .ok k) ∧
  ∀ (id id' : Bytes 66) (k : Bytes 32) (c : Fin 56), decodeCmd 66 id = .ok k →
    (∀ i : Fin 66, id'[i] = id[i] ∨ (4 ≤ i.val ∧ 0x41 ≤ id[i].toNat ∧ id[i].toNat ≤ 0x5A ∧ id'[i] = id[i] + 0x20#8)) →
    (payloadSlice id')[c] ≠ (payloadSlice id)[c] →
    (∀ j : Fin 56, j < c → (payloadSlice id')[j] = (payloadSlice id)[j]) →
    decodeCmd 66 id' = .error (.invalidEncoding c)

/-- 60_exceptions R217, 90_conflicts C4: at the level of the payload, the embedded checksum decides. Any change of its three bytes is
ChecksumMismatch, with certainty. -/
def Obligations.EveryChecksumChangeIsDetected : Prop :=
  ∀ (p : Bytes 3) (k : Bytes 32) (cs : Bytes 3), noSeparator p →
    (cs = csum3 (hashInput k (upcase3 p)) → decodeCmd 66 (assemble p (b32enc (payload k cs))) = .ok k) ∧
    (cs ≠ csum3 (hashInput k (upcase3 p)) →
      decodeCmd 66 (assemble p (b32enc (payload k cs))) = .error .checksumMismatch)

/-! ### Whole-machine rules -/

/-- The invariant (10_state R24, R30, 30_encoding R78, 60_exceptions R231, 70_reset_and_hazards R244) holds after reset. That `REQ` still
names the last command after COMPLETE is the model's choice (log 5). -/
def Obligations.InvariantHoldsAfterReset : Prop := State.reset.Inv

/-- Every step from every state with the invariant keeps it (log 5 as above). -/
def Obligations.EveryStepKeepsTheInvariant : Prop :=
  ∀ s t : State, s.Inv → step s = .next t → t.Inv

/-- 60_exceptions R229: the core cannot hang, trap or fault. From every state, those no run reaches included, a step goes on, unless it is
a START of an idle core whose command reads a register that holds no value; that one is refused under its own name. That a START on a data
register of which only some bytes are written goes on (log 2), that an idle core's turn and an empty agenda do (log 3), and that a COMPLETE on
a request which no START leaves behind does (log 20) are the model's choices. -/
def Obligations.OnlyAnUnwrittenStartIsRefused : Prop :=
  ∀ s : State,
    (∃ t, step s = .next t) ∨
    (s.isHostTurn .start ∧ s.busy = false ∧ s.inp.readable = false ∧ step s = .refused .unwrittenInput)

/-- 70_reset_and_hazards R251 (a), 60_exceptions R229: an operation in flight completes, whatever the HOST does meanwhile, unless it
resets: within one step more than the turns still to come. Turns as data, COMPLETE when none is left, and COMPLETE
on a request which no START leaves behind are the model's choice (log 3, 20). -/
def Obligations.AnOperationInFlightCompletes : Prop :=
  ∀ s : State, s.busy = true → (∀ a ∈ s.agenda, isResetTurn a = false) →
    ∃ k t, k ≤ s.agenda.length + 1 ∧ advanceN k (.next s) = .next t ∧ t.done = true ∧ t.busy = false

/-- 10_state R25, 20_memory R59, 70_reset_and_hazards R247: while an operation is in flight, no action of the HOST but RESET changes its
request, the status or an output register. -/
def Obligations.TheHostCannotDisturbAnOperation : Prop :=
  ∀ (s : State) (a : HostAction), s.busy = true → s.isHostTurn a → a ≠ .reset →
    ∃ t, step s = .next t ∧ t.req = s.req ∧ t.busy = true ∧ t.done = s.done ∧ t.err = s.err ∧ t.errPos = s.errPos ∧
      t.idOut = s.idOut ∧ t.keyOut = s.keyOut

/-- 60_exceptions R226: any interleaving of the steps of several cores leaves each core as if it ran alone. That a system is a list, and that
a core whose step was refused has stopped, is the model's choice (log 9). -/
def Obligations.CoresAreIsolated : Prop :=
  ∀ (y : System) (sched : List Nat) (k : Nat),
    (System.run y sched)[k]? = (y[k]?).map (advanceN (sched.count k))

/-- 45_operations R196, 30_encoding R83: the line `ENCODE pfx, key`, from any state, busy or idle, delivers its result
to the HOST, for operands of every length. The turns of a line, its last read
among them, and the record of what the HOST has read are the model's rendering of R196 (log 3, 7, 19); so is the end of an operation in
flight that no START began (log 20). -/
def Obligations.EncodeLineDeliversItsResult : Prop :=
  ∀ (s : State) (pfx key : List Byte) (rest : List Turn), s.agenda = lineTurns (.encode pfx key) ++ rest →
    ∃ t, advanceN (lineTurns (.encode pfx key)).length (.next s) = .next t ∧ t.agenda = rest ∧ t.busy = false ∧ t.done = true ∧
      (pfx.length ≠ 3 → t.hostLog = .err 1#3 :: .done true :: s.hostLog) ∧
      (pfx.length = 3 → key.length ≠ 32 → t.hostLog = .err 2#3 :: .done true :: s.hostLog) ∧
      ∀ (p : Bytes 3) (k : Bytes 32), p.toList = pfx → k.toList = key →
        t.hostLog = .idOut (encodeKey p k) :: .err 0#3 :: .done true :: s.hostLog

/-- 45_operations R196, 30_encoding R83: the line `DECODE identifier`, from any state, busy or idle, delivers its result
to the HOST, for operands of every length. The turns of a line, its last read
among them, and the record of what the HOST has read are the model's rendering of R196 (log 3, 7, 19); so is the end of an operation in
flight that no START began (log 20). -/
def Obligations.DecodeLineDeliversItsResult : Prop :=
  ∀ (s : State) (identifier : List Byte) (rest : List Turn), s.agenda = lineTurns (.decode identifier) ++ rest →
    ∃ t, advanceN (lineTurns (.decode identifier)).length (.next s) = .next t ∧ t.agenda = rest ∧ t.busy = false ∧ t.done = true ∧
      (identifier.length ≠ 66 → t.hostLog = .err 3#3 :: .done true :: s.hostLog) ∧
      ∀ id : Bytes 66, id.toList = identifier →
        t.hostLog =
          match decodeCmd 66 id with
          | .ok k => .keyOut k :: .err 0#3 :: .done true :: s.hostLog
          | .error (.invalidEncoding pos) => .errPos (BitVec.ofNat 6 pos.val) :: .err 6#3 :: .done true :: s.hostLog
          | .error k => .err (errCode k) :: .done true :: s.hostLog

/-- 45_operations R196, R197, at the level of the machine: a HOST that encodes a key under a prefix without a separator byte and then decodes
the identifier it was given reads back the key, from any state (turns as data, the last
read of a line, the record of what was read, an operation in flight that no START began: log 3, 7, 19, 20). -/
def Obligations.MachineRoundTrip : Prop :=
  ∀ (s : State) (p : Bytes 3) (k : Bytes 32) (rest : List Turn), noSeparator p →
    s.agenda = lineTurns (.encode p.toList k.toList) ++ (lineTurns (.decode (encodeKey p k).toList) ++ rest) →
    ∃ n t, advanceN n (.next s) = .next t ∧ t.agenda = rest ∧
      t.hostLog = .keyOut k :: .err 0#3 :: .done true :: .idOut (encodeKey p k) :: .err 0#3 :: .done true :: s.hostLog
end

