-- ==== Sys2Proof/Laws/Base32.lean ====
section
/-! SUPPORT. The base32 units, bit by bit (spec/41_base32.md R120, R121, spec/30_encoding.md R74). -/

namespace Sys2Proof.Machine

open Sys2Proof

@[simp] theorem val_sym (v : BitVec 5) : val (sym v) = some v := by
  revert v; decide

theorem sym_of_val {c : Byte} {v : BitVec 5} (h : val c = some v) : sym v = c := by
  have all : ∀ c : Byte, ∀ v : BitVec 5, val c = some v → sym v = c := by decide +kernel
  exact all c v h

/-- The alphabet does not hold the separator (41_base32 R123). -/
theorem sym_ne_separator (v : BitVec 5) : sym v ≠ Config.separator := by
  revert v; decide

@[simp] theorem b32enc_getElem (pay : Bytes 35) (i : Nat) (h : i < 56) :
    (b32enc pay)[i] = sym (payGroup pay ⟨i, h⟩) := by
  simp [b32enc]

/-- Bit `t` of group `i` is bit `5i + t` of the 280-bit string. -/
theorem payGroup_getMsbD (pay : Bytes 35) (i : Fin 56) (t : Nat) (ht : t < 5) :
    (payGroup pay i).getMsbD t = payBit pay ⟨5 * i.val + t, by omega⟩ := by
  simp [payGroup, BitVec.getMsbD_ofFnBE, ht]

@[simp] theorem charsToBytes_getElem_getMsbD (s : Bytes 56) (j : Nat) (hj : j < 35) (t : Nat) (ht : t < 8) :
    ((charsToBytes s)[j]).getMsbD t = charBit s ⟨8 * j + t, by omega⟩ := by
  simp [charsToBytes, BitVec.getMsbD_ofFnBE, ht]

/-- The payload's bit string is the characters' bit string. -/
theorem payBit_charsToBytes (s : Bytes 56) (k : Fin 280) : payBit (charsToBytes s) k = charBit s k := by
  have h2 : k.val % 8 < 8 := by omega
  have h3 : 8 * (k.val / 8) + k.val % 8 = k.val := by omega
  simp [payBit, charsToBytes_getElem_getMsbD, h2, h3]

/-- The characters' bit string is the payload's bit string. -/
theorem charBit_b32enc (pay : Bytes 35) (k : Fin 280) : charBit (b32enc pay) k = payBit pay k := by
  have h2 : k.val % 5 < 5 := by omega
  have h3 : 5 * (k.val / 5) + k.val % 5 = k.val := by omega
  simp [charBit, charValue, payGroup_getMsbD, h2, h3]

/-- Two payloads with the same bit string are equal. -/
theorem payload_ext_bits {p q : Bytes 35} (h : ∀ k, payBit p k = payBit q k) : p = q := by
  ext j hj : 1
  refine BitVec.eq_of_getMsbD_eq fun t ht => ?_
  have := h ⟨8 * j + t, by omega⟩
  have h1 : (8 * j + t) / 8 = j := by omega
  have h2 : (8 * j + t) % 8 = t := by omega
  simpa [payBit, h1, h2] using this

/-- The first bad position: outside the alphabet, with everything before it inside (41_base32 R122). -/
theorem firstBad_eq_some {s : Bytes 56} {i : Fin 56} :
    firstBad s = some i ↔ val s[i] = none ∧ ∀ j : Fin 56, j < i → ∃ v, val s[j] = some v := by
  have hsome : ∀ o : Option (BitVec 5), o.isNone = false ↔ ∃ v, o = some v := by
    intro o; cases o <;> simp
  unfold firstBad
  rw [List.find?_eq_some_iff_getElem]
  simp only [Option.isNone_iff_eq_none, Bool.not_eq_true', List.getElem_finRange, hsome]
  constructor
  · rintro ⟨hi, k, hk, rfl, hlt⟩
    refine ⟨hi, fun j hj => ?_⟩
    exact hlt j.val hj
  · rintro ⟨hi, hlt⟩
    refine ⟨hi, i.val, by simp, rfl, fun j hj => ?_⟩
    exact hlt ⟨j, by omega⟩ hj

/-- No bad position: every character is in the alphabet. -/
theorem firstBad_eq_none {s : Bytes 56} : firstBad s = none ↔ ∀ i : Fin 56, ∃ v, val s[i] = some v := by
  have hsome : ∀ o : Option (BitVec 5), o ≠ none ↔ ∃ v, o = some v := by
    intro o; cases o <;> simp
  unfold firstBad
  simp [List.find?_eq_none, hsome]

end Sys2Proof.Machine
end

