-- ==== Sys2Proof/Laws/Operands.lean ====
section
/-! SUPPORT. The operand forms: byte access, the 35-byte buffers, the case normaliser, the length fields and the registers a
command reads (spec/20_memory.md R53, R55, spec/42_assembler.md R140, spec/10_state.md R22, R30). -/

namespace Sys2Proof.Machine

open Sys2Proof

/-! ### Byte access -/

@[simp] theorem memRead_getElem {m : Nat} (B : Bytes m) (i n : Nat) (h : i + n ≤ m) (k : Nat) (hk : k < n) :
    (memRead B i n h)[k] = B[i + k] := by
  simp [memRead]

theorem memWrite_getElem {m n : Nat} (B : Bytes m) (i : Nat) (v : Bytes n) (h : i + n ≤ m) (k : Nat) (hk : k < m) :
    (memWrite B i v h)[k] = if hi : i ≤ k ∧ k < i + n then v[k - i] else B[k] := by
  simp [memWrite]

theorem cat_getElem {m n l : Nat} (a : Bytes m) (b : Bytes n) (h : l = m + n) (k : Nat) (hk : k < l) :
    (cat a b h)[k] = if hm : k < m then a[k] else b[k - m] := by
  simp [cat]

theorem cat_getElem_left {m n l : Nat} (a : Bytes m) (b : Bytes n) (h : l = m + n) (k : Nat) (hk : k < m) :
    (cat a b h)[k]'(by omega) = a[k] := by
  simp [cat_getElem, hk]

theorem cat_getElem_right {m n l : Nat} (a : Bytes m) (b : Bytes n) (h : l = m + n) (k : Nat) (hk : k < n) :
    (cat a b h)[m + k]'(by omega) = b[k] := by
  simp [cat_getElem]

/-! ### The 35-byte buffers -/

@[simp] theorem payloadKey_payload (key : Bytes 32) (cs : Bytes 3) : payloadKey (payload key cs) = key := by
  ext k hk : 1
  simp [payloadKey, payload, cat_getElem, hk]

@[simp] theorem payloadChecksum_payload (key : Bytes 32) (cs : Bytes 3) :
    payloadChecksum (payload key cs) = cs := by
  ext k hk : 1
  simp [payloadChecksum, payload, cat_getElem]

/-- A payload is its key followed by its checksum (30_encoding R72). -/
@[simp] theorem payload_eta (pay : Bytes 35) : payload (payloadKey pay) (payloadChecksum pay) = pay := by
  ext k hk : 1
  by_cases h : k < 32
  · simp [payload, payloadKey, cat_getElem, h]
  · have hk' : 32 + (k - 32) = k := by omega
    simp [payload, payloadChecksum, cat_getElem, h, hk']

/-! ### The case normaliser -/

@[simp] theorem upcase3_getElem (p : Bytes 3) (i : Nat) (h : i < 3) : (upcase3 p)[i] = upcaseByte p[i] := by
  simp [upcase3]

theorem upcaseByte_idem (b : Byte) : upcaseByte (upcaseByte b) = upcaseByte b := by
  revert b; decide

theorem upcaseByte_eq_separator (b : Byte) : upcaseByte b = Config.separator ↔ b = Config.separator := by
  revert b; decide

/-! ### The length fields -/

/-- A length field holds `min(n, 2^LENW - 1)` (10_state R22). -/
theorem two_pow_lenw : 128 ≤ 2 ^ Config.lenw := by
  have h : (2 : Nat) ^ 7 ≤ 2 ^ Config.lenw := Nat.pow_le_pow_right (by omega) (by simp [Config.lenw])
  simpa using h

theorem saturate_of_le {n : Nat} (h : n ≤ 127) : saturate n = n := by simp [saturate, h]

theorem saturate_lt (n : Nat) : saturate n < 2 ^ Config.lenw := by
  have h := two_pow_lenw
  unfold saturate
  split <;> omega

/-! ### The registers a command reads -/

theorem Slot.held_iff {α : Type} (x : Slot α) : x.held = true ↔ ∃ v, x = .value v := by
  cases x <;> simp [Slot.held]

@[simp] theorem Slot.getD_value {α : Type} (d v : α) : (Slot.value v).getD d = v := rfl

/-- A register that holds a value contains that value, whatever it would contain otherwise (10_state R29, R30). -/
theorem Slot.getD_congr {α : Type} {x : Slot α} (h : ∃ v, x = .value v) (d d' : α) : x.getD d = x.getD d' := by
  obtain ⟨v, rfl⟩ := h; rfl

theorem Inputs.pfxBytes_of_value {r : Inputs} {v : Bytes 3} (h : r.pfx = .value v) (j e : Nat) : r.pfxBytes j e = v := by
  simp [Inputs.pfxBytes, h]

theorem Inputs.keyBytes_of_value {r : Inputs} {v : Bytes 32} (h : r.keyIn = .value v) (j e : Nat) : r.keyBytes j e = v := by
  simp [Inputs.keyBytes, h]

theorem Inputs.idBytes_of_value {r : Inputs} {v : Bytes 66} (h : r.idIn = .value v) (j e : Nat) : r.idBytes j e = v := by
  simp [Inputs.idBytes, h]

@[simp] theorem unwrittenBytes_getElem (j e i n k : Nat) (h : k < n) : (unwrittenBytes j e i n)[k] = Config.unwrittenByte j e (i + k) := by
  simp [unwrittenBytes]

@[simp] theorem freeBytes_getElem (j k n i : Nat) (h : i < n) : (freeBytes j k n)[i] = Config.freeByte j (k + i) := by
  simp [freeBytes]

/-- ENCODE with a wrong length looks at neither data register (45_operations R190). -/
theorem encodeCmd_congr {np nk np' nk' : Nat} {pfx pfx' : Bytes 3} {key key' : Bytes 32} (hp : np = np')
    (hk : np = 3 → nk = nk') (hd : np = 3 → nk = 32 → pfx = pfx' ∧ key = key') :
    encodeCmd np pfx nk key = encodeCmd np' pfx' nk' key' := by
  subst hp
  unfold encodeCmd
  by_cases h3 : np = Config.prefixLength
  · cases hk h3
    by_cases h32 : nk = Config.publicKeyLength
    · obtain ⟨rfl, rfl⟩ := hd h3 h32
      rfl
    · simp [h3, h32]
  · simp [h3]

/-- DECODE with a wrong length does not look at the identifier (45_operations R191). -/
theorem decodeCmd_congr {n n' : Nat} {id id' : Bytes 66} (hn : n = n') (hd : n = 66 → id = id') :
    decodeCmd n id = decodeCmd n' id' := by
  subst hn
  by_cases h : n = Config.identifierLength
  · rw [hd h]
  · simp [decodeCmd, parse, h]

end Sys2Proof.Machine
end

