-- ==== Sys2Proof/Laws/Checksum.lean ====
section
/-! SUPPORT. Lanes and bytes (spec/40_checksum.md R101, R102). -/

namespace Sys2Proof.Machine

open Sys2Proof

/-- A lane of an array given by a function. -/
theorem laneAt_lanesOf (f : Nat → Nat → Lane) (x y : Nat) (hx : x < 5) (hy : y < 5) : laneAt (lanesOf f) x y = f x y := by
  have e1 : (x % 5 + 5 * (y % 5)) % 5 = x := by omega
  have e2 : (x % 5 + 5 * (y % 5)) / 5 = y := by omega
  simp [laneAt, lanesOf, e1, e2]

/-- Byte `j` of lane `i` is byte `8i + j` of the block (40_checksum R102). -/
theorem lane_byte (B : Bytes 200) (i : Fin 25) (j : Nat) (hj : j < 8) : ((lanes B)[i]).extractLsb' (8 * j) 8 = B[8 * i.val + j] := by
  simp only [lanes, Fin.getElem_fin, Vector.getElem_ofFn]
  have : j = 0 ∨ j = 1 ∨ j = 2 ∨ j = 3 ∨ j = 4 ∨ j = 5 ∨ j = 6 ∨ j = 7 := by omega
  refine BitVec.eq_of_getLsbD_eq fun t ht => ?_
  rw [BitVec.getLsbD_extractLsb']
  simp only [BitVec.getLsbD_append, ht, decide_true, Bool.true_and]
  rcases this with rfl | rfl | rfl | rfl | rfl | rfl | rfl | rfl <;> simp [ht] <;> (try (repeat (rw [if_neg (by omega)]))) <;> (try (rw [if_pos (by omega)])) <;> (try congr 1) <;> (try (simp; omega))

/-- Two lanes with the same bytes are equal. -/
theorem lane_ext (a b : Lane) (h : ∀ j < 8, a.extractLsb' (8 * j) 8 = b.extractLsb' (8 * j) 8) : a = b := by
  refine BitVec.eq_of_getLsbD_eq fun t ht => ?_
  have := congrArg (fun v => v.getLsbD (t % 8)) (h (t / 8) (by omega))
  have e : 8 * (t / 8) + t % 8 = t := by omega
  have : t % 8 < 8 := by omega
  simp_all

theorem finRange_eight : List.finRange 8 = [0,1,2,3,4,5,6,7] := by decide

/-- A sum over the eight bytes of a lane, written out. -/
theorem sum_finRange_eight (f : Fin 8 → Nat) : ((List.finRange 8).map f).sum = f 0 + (f 1 + (f 2 + (f 3 + (f 4 + (f 5 + (f 6 + (f 7 + 0))))))) := by
  rw [finRange_eight]; rfl

/-- The number eight bytes stand for, little-endian (40_checksum R102). -/
theorem lane_toNat (b0 b1 b2 b3 b4 b5 b6 b7 : Byte) : (b7 ++ b6 ++ b5 ++ b4 ++ b3 ++ b2 ++ b1 ++ b0).toNat =
   b0.toNat * 2 ^ 0 + (b1.toNat * 2^8 + (b2.toNat * 2^16 + (b3.toNat * 2^24 + (b4.toNat * 2^32 + (b5.toNat * 2^40 + (b6.toNat * 2^48 + (b7.toNat * 2^56 + 0))))))) := by
  simp only [BitVec.toNat_append]
  have h : ∀ a (b : Byte), (a <<< 8 ||| b.toNat) = a * 256 + b.toNat := by
    intro a b
    rw [← Nat.shiftLeft_add_eq_or_of_lt b.isLt a, Nat.shiftLeft_eq]
  simp only [h]; norm_num only; ring

/-- A lane of a block, from its eight bytes. -/
theorem lanes_getElem (B : Bytes 200) (i : Fin 25) : (lanes B)[i] = B[8 * i.val + 7] ++ B[8 * i.val + 6] ++ B[8 * i.val + 5] ++ B[8 * i.val + 4] ++
      B[8 * i.val + 3] ++ B[8 * i.val + 2] ++ B[8 * i.val + 1] ++ B[8 * i.val] := by
  unfold lanes
  rw [Fin.getElem_fin, Vector.getElem_ofFn]

/-- The bytes of the one block of a 35-byte message (40_checksum R101). -/
theorem sha3Block_getElem (m : Bytes 35) (k : Nat) (hk : k < 200) : (sha3Block m)[k] = if h : k < 35 then m[k] else if k = 35 then 0x06#8 else if k = 135 then 0x80#8 else 0#8 := by
  simp only [sha3Block, Vector.getElem_set, memWrite_getElem]
  by_cases h1 : k < 35
  · have : ¬ 135 = k := by omega
    have : ¬ 35 = k := by omega
    simp [*]
  · by_cases h2 : k = 35
    · subst h2; simp
    · by_cases h3 : k = 135
      · subst h3; simp
      · have : ¬ 135 = k := by omega
        have : ¬ 35 = k := by omega
        simp [*]

end Sys2Proof.Machine
end

