-- ==== Sys2Proof/Laws/Decode.lean ====
section
/-! SUPPORT. The decoder on the three places an item is fetched from: `REQ.OP` and `ERR` always hold a row, and a
character is a row exactly when it is the separator or in the alphabet (spec/30_encoding.md R74, R76, R77). -/

namespace Sys2Proof.Machine

open Sys2Proof

/-- `OP` is one bit (30_encoding R76). -/
theorem op_cases (o : BitVec 1) : o = 0#1 ∨ o = 1#1 := by
  revert o; decide

/-- Both values of `OP` are commands (30_encoding R76). -/
theorem decode_opItem (o : BitVec 1) : decode (opItem o) = .ok (if o = 0#1 then .encode else .decode) := by
  revert o; decide

/-- All eight values of `ERR` are rows (30_encoding R77). -/
theorem decode_errItem (c : BitVec 3) : ∃ i, decode (errItem c) = .ok i ∧
    ∀ s : State, exec i s = .next (s.logRead (.err c)) := by
  have hc : c = 0#3 ∨ c = 1#3 ∨ c = 2#3 ∨ c = 3#3 ∨ c = 4#3 ∨ c = 5#3 ∨ c = 6#3 ∨ c = 7#3 := by
    revert c; decide
  rcases hc with rfl | rfl | rfl | rfl | rfl | rfl | rfl | rfl
  · exact ⟨.errOK, rfl, fun _ => rfl⟩
  · exact ⟨.errInvalidPrefixLength, rfl, fun _ => rfl⟩
  · exact ⟨.errInvalidInputLength, rfl, fun _ => rfl⟩
  · exact ⟨.errInvalidIdentifierLength, rfl, fun _ => rfl⟩
  · exact ⟨.errInvalidDataSegmentCount, rfl, fun _ => rfl⟩
  · exact ⟨.errInvalidDataSegmentLength, rfl, fun _ => rfl⟩
  · exact ⟨.errInvalidEncoding, rfl, fun _ => rfl⟩
  · exact ⟨.errChecksumMismatch, rfl, fun _ => rfl⟩

/-- Every character row runs as the write of its own byte. -/
theorem exec_charRow (i : Instr) (s : State) (h : (encode i).format = .b32sym ∨ (encode i).format = .idsep) :
    exec i s = .next (s.putChar s.idSel (encode i).bits) := by
  cases i <;> first | rfl | (exfalso; simp [encode] at h)

/-- A row found in the table has the item's bits in the item's format: the masks cover the formats' widths. -/
theorem opcodeTable_sound (r : Row) (hr : r ∈ opcodeTable) (f : Item) (hf : f.wf = true)
    (hm : r.matchesItem f = true) : encode r.instr = f := by
  obtain ⟨fmt, b⟩ := f
  revert hf hm b fmt
  have all : ∀ r ∈ opcodeTable, ∀ b : Byte, (⟨r.format, b⟩ : Item).wf = true →
      r.matchesItem ⟨r.format, b⟩ = true → encode r.instr = ⟨r.format, b⟩ := by
    decide +kernel
  intro fmt b hf hm
  have hfmt : r.format = fmt := by
    simp only [Row.matchesItem, Bool.and_eq_true, beq_iff_eq] at hm
    exact hm.1
  subst hfmt
  exact all r hr b hf hm

/-- A decoded row is in the table. -/
theorem decode_ok_iff {f : Item} {i : Instr} (h : decode f = .ok i) :
    f.wf = true ∧ ∃ r ∈ opcodeTable, r.matchesItem f = true ∧ r.instr = i := by
  unfold decode at h
  split at h
  · rename_i hw
    split at h
    · rename_i r hr
      cases h
      exact ⟨hw, r, List.mem_of_find?_eq_some hr, by simpa using List.find?_some hr, rfl⟩
    · cases h
  · cases h

end Sys2Proof.Machine
end

