-- ==== Sys2Proof/Laws/State.lean ====
section
/-! SUPPORT. The state operations, one lemma per field: what each leaves and what it writes
(spec/70_reset_and_hazards.md R252). No later proof unfolds a record update. -/

namespace Sys2Proof.Machine

open Sys2Proof

@[simp] theorem State.hostWrite_inp (s : State) (w : HostWrite) :
    (s.hostWrite w).inp = s.inp.hostWrite s.freeSource s.resetCount w := rfl
@[simp] theorem State.hostWrite_req (s : State) (w : HostWrite) : (s.hostWrite w).req = s.req := rfl
@[simp] theorem State.hostWrite_busy (s : State) (w : HostWrite) : (s.hostWrite w).busy = s.busy := rfl
@[simp] theorem State.hostWrite_done (s : State) (w : HostWrite) : (s.hostWrite w).done = s.done := rfl
@[simp] theorem State.hostWrite_err (s : State) (w : HostWrite) : (s.hostWrite w).err = s.err := rfl
@[simp] theorem State.hostWrite_errPos (s : State) (w : HostWrite) : (s.hostWrite w).errPos = s.errPos := rfl
@[simp] theorem State.hostWrite_idOut (s : State) (w : HostWrite) : (s.hostWrite w).idOut = s.idOut := rfl
@[simp] theorem State.hostWrite_keyOut (s : State) (w : HostWrite) : (s.hostWrite w).keyOut = s.keyOut := rfl
@[simp] theorem State.hostWrite_agenda (s : State) (w : HostWrite) : (s.hostWrite w).agenda = s.agenda := rfl
@[simp] theorem State.hostWrite_idSel (s : State) (w : HostWrite) : (s.hostWrite w).idSel = s.idSel := rfl
@[simp] theorem State.hostWrite_hostLog (s : State) (w : HostWrite) : (s.hostWrite w).hostLog = s.hostLog := rfl
@[simp] theorem State.hostWrite_freeCount (s : State) (w : HostWrite) : (s.hostWrite w).freeCount = s.freeCount := rfl
@[simp] theorem State.hostWrite_freeSource (s : State) (w : HostWrite) : (s.hostWrite w).freeSource = s.freeSource := rfl
@[simp] theorem State.hostWrite_resetCount (s : State) (w : HostWrite) : (s.hostWrite w).resetCount = s.resetCount := rfl

@[simp] theorem State.logRead_inp (s : State) (v : HostValue) : (s.logRead v).inp = s.inp := rfl
@[simp] theorem State.logRead_req (s : State) (v : HostValue) : (s.logRead v).req = s.req := rfl
@[simp] theorem State.logRead_busy (s : State) (v : HostValue) : (s.logRead v).busy = s.busy := rfl
@[simp] theorem State.logRead_done (s : State) (v : HostValue) : (s.logRead v).done = s.done := rfl
@[simp] theorem State.logRead_err (s : State) (v : HostValue) : (s.logRead v).err = s.err := rfl
@[simp] theorem State.logRead_errPos (s : State) (v : HostValue) : (s.logRead v).errPos = s.errPos := rfl
@[simp] theorem State.logRead_idOut (s : State) (v : HostValue) : (s.logRead v).idOut = s.idOut := rfl
@[simp] theorem State.logRead_keyOut (s : State) (v : HostValue) : (s.logRead v).keyOut = s.keyOut := rfl
@[simp] theorem State.logRead_agenda (s : State) (v : HostValue) : (s.logRead v).agenda = s.agenda := rfl
@[simp] theorem State.logRead_idSel (s : State) (v : HostValue) : (s.logRead v).idSel = s.idSel := rfl
@[simp] theorem State.logRead_hostLog (s : State) (v : HostValue) : (s.logRead v).hostLog = v :: s.hostLog := rfl
@[simp] theorem State.logRead_freeCount (s : State) (v : HostValue) : (s.logRead v).freeCount = s.freeCount := rfl
@[simp] theorem State.logRead_freeSource (s : State) (v : HostValue) : (s.logRead v).freeSource = s.freeSource := rfl
@[simp] theorem State.logRead_resetCount (s : State) (v : HostValue) : (s.logRead v).resetCount = s.resetCount := rfl

@[simp] theorem State.complete_inp (s : State) (c : BitVec 3 × BitVec 6) : (s.complete c).inp = s.inp := rfl
@[simp] theorem State.complete_req (s : State) (c : BitVec 3 × BitVec 6) : (s.complete c).req = s.req := rfl
@[simp] theorem State.complete_busy (s : State) (c : BitVec 3 × BitVec 6) : (s.complete c).busy = false := rfl
@[simp] theorem State.complete_done (s : State) (c : BitVec 3 × BitVec 6) : (s.complete c).done = true := rfl
@[simp] theorem State.complete_err (s : State) (c : BitVec 3 × BitVec 6) : (s.complete c).err = c.1 := rfl
@[simp] theorem State.complete_errPos (s : State) (c : BitVec 3 × BitVec 6) : (s.complete c).errPos = c.2 := rfl
@[simp] theorem State.complete_idOut (s : State) (c : BitVec 3 × BitVec 6) : (s.complete c).idOut = s.idOut := rfl
@[simp] theorem State.complete_keyOut (s : State) (c : BitVec 3 × BitVec 6) : (s.complete c).keyOut = s.keyOut := rfl
@[simp] theorem State.complete_agenda (s : State) (c : BitVec 3 × BitVec 6) : (s.complete c).agenda = s.agenda := rfl
@[simp] theorem State.complete_idSel (s : State) (c : BitVec 3 × BitVec 6) : (s.complete c).idSel = s.idSel := rfl
@[simp] theorem State.complete_hostLog (s : State) (c : BitVec 3 × BitVec 6) : (s.complete c).hostLog = s.hostLog := rfl
@[simp] theorem State.complete_freeCount (s : State) (c : BitVec 3 × BitVec 6) : (s.complete c).freeCount = s.freeCount := rfl
@[simp] theorem State.complete_freeSource (s : State) (c : BitVec 3 × BitVec 6) : (s.complete c).freeSource = s.freeSource := rfl
@[simp] theorem State.complete_resetCount (s : State) (c : BitVec 3 × BitVec 6) : (s.complete c).resetCount = s.resetCount := rfl

@[simp] theorem State.returnIdentifier_inp (s : State) (v : Bytes 66) : (s.returnIdentifier v).inp = s.inp := rfl
@[simp] theorem State.returnIdentifier_req (s : State) (v : Bytes 66) : (s.returnIdentifier v).req = s.req := rfl
@[simp] theorem State.returnIdentifier_busy (s : State) (v : Bytes 66) : (s.returnIdentifier v).busy = false := rfl
@[simp] theorem State.returnIdentifier_done (s : State) (v : Bytes 66) : (s.returnIdentifier v).done = true := rfl
@[simp] theorem State.returnIdentifier_err (s : State) (v : Bytes 66) : (s.returnIdentifier v).err = 0#3 := rfl
@[simp] theorem State.returnIdentifier_errPos (s : State) (v : Bytes 66) : (s.returnIdentifier v).errPos = 0#6 := rfl
@[simp] theorem State.returnIdentifier_idOut (s : State) (v : Bytes 66) : (s.returnIdentifier v).idOut = .value v := rfl
@[simp] theorem State.returnIdentifier_keyOut (s : State) (v : Bytes 66) : (s.returnIdentifier v).keyOut = s.keyOut := rfl
@[simp] theorem State.returnIdentifier_agenda (s : State) (v : Bytes 66) : (s.returnIdentifier v).agenda = s.agenda := rfl
@[simp] theorem State.returnIdentifier_idSel (s : State) (v : Bytes 66) : (s.returnIdentifier v).idSel = s.idSel := rfl
@[simp] theorem State.returnIdentifier_hostLog (s : State) (v : Bytes 66) : (s.returnIdentifier v).hostLog = s.hostLog := rfl
@[simp] theorem State.returnIdentifier_freeCount (s : State) (v : Bytes 66) : (s.returnIdentifier v).freeCount = s.freeCount := rfl
@[simp] theorem State.returnIdentifier_freeSource (s : State) (v : Bytes 66) : (s.returnIdentifier v).freeSource = s.freeSource := rfl
@[simp] theorem State.returnIdentifier_resetCount (s : State) (v : Bytes 66) : (s.returnIdentifier v).resetCount = s.resetCount := rfl

@[simp] theorem State.returnKey_inp (s : State) (v : Bytes 32) : (s.returnKey v).inp = s.inp := rfl
@[simp] theorem State.returnKey_req (s : State) (v : Bytes 32) : (s.returnKey v).req = s.req := rfl
@[simp] theorem State.returnKey_busy (s : State) (v : Bytes 32) : (s.returnKey v).busy = false := rfl
@[simp] theorem State.returnKey_done (s : State) (v : Bytes 32) : (s.returnKey v).done = true := rfl
@[simp] theorem State.returnKey_err (s : State) (v : Bytes 32) : (s.returnKey v).err = 0#3 := rfl
@[simp] theorem State.returnKey_errPos (s : State) (v : Bytes 32) : (s.returnKey v).errPos = 0#6 := rfl
@[simp] theorem State.returnKey_idOut (s : State) (v : Bytes 32) : (s.returnKey v).idOut = s.idOut := rfl
@[simp] theorem State.returnKey_keyOut (s : State) (v : Bytes 32) : (s.returnKey v).keyOut = .value v := rfl
@[simp] theorem State.returnKey_agenda (s : State) (v : Bytes 32) : (s.returnKey v).agenda = s.agenda := rfl
@[simp] theorem State.returnKey_idSel (s : State) (v : Bytes 32) : (s.returnKey v).idSel = s.idSel := rfl
@[simp] theorem State.returnKey_hostLog (s : State) (v : Bytes 32) : (s.returnKey v).hostLog = s.hostLog := rfl
@[simp] theorem State.returnKey_freeCount (s : State) (v : Bytes 32) : (s.returnKey v).freeCount = s.freeCount := rfl
@[simp] theorem State.returnKey_freeSource (s : State) (v : Bytes 32) : (s.returnKey v).freeSource = s.freeSource := rfl
@[simp] theorem State.returnKey_resetCount (s : State) (v : Bytes 32) : (s.returnKey v).resetCount = s.resetCount := rfl

@[simp] theorem State.hostReset_inp (s : State) : s.hostReset.inp = State.reset.inp := rfl
@[simp] theorem State.hostReset_req (s : State) : s.hostReset.req = State.reset.req := rfl
@[simp] theorem State.hostReset_busy (s : State) : s.hostReset.busy = State.reset.busy := rfl
@[simp] theorem State.hostReset_done (s : State) : s.hostReset.done = State.reset.done := rfl
@[simp] theorem State.hostReset_err (s : State) : s.hostReset.err = State.reset.err := rfl
@[simp] theorem State.hostReset_errPos (s : State) : s.hostReset.errPos = State.reset.errPos := rfl
@[simp] theorem State.hostReset_idOut (s : State) : s.hostReset.idOut = State.reset.idOut := rfl
@[simp] theorem State.hostReset_keyOut (s : State) : s.hostReset.keyOut = State.reset.keyOut := rfl
@[simp] theorem State.hostReset_agenda (s : State) : s.hostReset.agenda = s.agenda := rfl
@[simp] theorem State.hostReset_idSel (s : State) : s.hostReset.idSel = s.idSel := rfl
@[simp] theorem State.hostReset_hostLog (s : State) : s.hostReset.hostLog = s.hostLog := rfl
@[simp] theorem State.hostReset_freeCount (s : State) : s.hostReset.freeCount = s.freeCount := rfl
@[simp] theorem State.hostReset_freeSource (s : State) : s.hostReset.freeSource = s.freeSource := rfl
@[simp] theorem State.hostReset_resetCount (s : State) : s.hostReset.resetCount = s.resetCount + 1 := rfl

theorem State.putChar_eq (s : State) (i : Fin 66) (c : Byte) :
    s.putChar i c =
      { s with inp := { s.inp with idIn := .value ((s.inp.idBytes s.freeSource s.resetCount).set i.val c) } } := rfl

/-- Reporting an error of ENCODE (60_exceptions R220). -/
theorem State.raiseErr_encode (s : State) (k : ErrKind) :
    s.raiseErr 0#1 k =
      { s with idOut := .any, err := errCode k, errPos := errDatum k, busy := false, done := true } := rfl

/-- Reporting an error of DECODE (60_exceptions R220). -/
theorem State.raiseErr_decode (s : State) (k : ErrKind) :
    s.raiseErr 1#1 k =
      { s with keyOut := .any, err := errCode k, errPos := errDatum k, busy := false, done := true } := rfl

/-- A HOST_READ touches the model's own fields alone (45_operations R195). -/
theorem State.hostRead_core (s : State) (p : Port) :
    ∃ v k, s.hostRead p = { s with hostLog := v :: s.hostLog, freeCount := k } := by
  cases p <;> exact ⟨_, _, rfl⟩

/-- The read that follows `HOST_READ ERR` touches the model's own fields alone (45_operations R196). -/
theorem State.hostReadResult_core (s : State) (op : BitVec 1) :
    ∃ l k, s.hostReadResult op = { s with hostLog := l, freeCount := k } := by
  unfold State.hostReadResult
  split
  · obtain ⟨v, k, h⟩ := s.hostRead_core (if op = 0#1 then .idOut else .keyOut)
    exact ⟨_, _, h⟩
  · split
    · obtain ⟨v, k, h⟩ := s.hostRead_core .errPos
      exact ⟨_, _, h⟩
    · exact ⟨_, _, rfl⟩

/-- Everything START can do (45_operations R192). -/
theorem State.start_cases (s : State) :
    (s.busy = true ∧ s.start = .next s) ∨
    (s.busy = false ∧ s.inp.readable = true ∧
      s.start = .next { s with req := s.inp, busy := true, done := false }) ∨
    (s.busy = false ∧ s.inp.readable = false ∧ s.start = .refused .unwrittenInput) := by
  unfold State.start
  cases s.busy
  · cases hr : s.inp.readable
    · exact .inr (.inr ⟨rfl, rfl, by simp⟩)
    · exact .inr (.inl ⟨rfl, rfl, by simp⟩)
  · exact .inl ⟨rfl, by simp⟩

end Sys2Proof.Machine
end

