-- ==== Sys2Proof/Laws/Commands.lean ====
section
/-! SUPPORT. Everything a command and a turn can do, once (spec/45_operations.md R192 to R195): every later proof about a step
cites these and unfolds no meaning. -/

namespace Sys2Proof.Machine

open Sys2Proof

/-- What ENCODE reads when its request is readable (20_memory R55). -/
theorem Inputs.encodeReadable_iff (r : Inputs) :
    r.encodeReadable = true ↔
      ∃ np, r.pfxLen = .value np ∧ (np = 3 → ∃ nk, r.keyLen = .value nk ∧
        (nk = 32 → (∃ v, r.pfx = .value v) ∧ ∃ v, r.keyIn = .value v)) := by
  unfold Inputs.encodeReadable
  cases hp : r.pfxLen with
  | noValue => simp
  | value np =>
    by_cases h3 : np = 3
    · subst h3
      cases hk : r.keyLen with
      | noValue => simp
      | value nk => by_cases h32 : nk = 32 <;> simp [h32, Slot.held_iff]
    · simp [h3]

/-- What DECODE reads when its request is readable (20_memory R55). -/
theorem Inputs.decodeReadable_iff (r : Inputs) :
    r.decodeReadable = true ↔ ∃ n, r.idLen = .value n ∧ (n = 66 → ∃ v, r.idIn = .value v) := by
  unfold Inputs.decodeReadable
  cases hn : r.idLen with
  | noValue => simp
  | value n => by_cases h : n = 66 <;> simp [h, Slot.held_iff]

/-- A readable request holds a command and the registers it reads. -/
theorem Inputs.readable_cases {r : Inputs} (h : r.readable = true) :
    (r.op = .value 0#1 ∧ r.encodeReadable = true) ∨ (r.op = .value 1#1 ∧ r.decodeReadable = true) := by
  unfold Inputs.readable at h
  cases ho : r.op with
  | noValue => simp [ho] at h
  | value o =>
    rcases op_cases o with rfl | rfl
    · exact .inl ⟨rfl, by simpa [ho] using h⟩
    · exact .inr ⟨rfl, by simpa [ho] using h⟩

/-- The result of ENCODE on a readable request is a function of the request alone (10_state R29, R30). -/
theorem Inputs.runEncode_readable {r : Inputs} (h : r.encodeReadable = true) (j e j' e' : Nat) :
    r.runEncode j e = r.runEncode j' e' := by
  obtain ⟨np, hp, h⟩ := r.encodeReadable_iff.1 h
  unfold Inputs.runEncode
  refine encodeCmd_congr (Slot.getD_congr ⟨_, hp⟩ _ _) (fun h3 => ?_) fun h3 h32 => ?_
  · obtain ⟨nk, hk, _⟩ := h (by simpa [hp] using h3)
    exact Slot.getD_congr ⟨_, hk⟩ _ _
  · obtain ⟨nk, hk, h⟩ := h (by simpa [hp] using h3)
    obtain ⟨h1, h2⟩ := h (by simpa [hk] using h32)
    exact ⟨Slot.getD_congr h1 _ _, Slot.getD_congr h2 _ _⟩

/-- The result of DECODE on a readable request is a function of the request alone (10_state R29, R30). -/
theorem Inputs.runDecode_readable {r : Inputs} (h : r.decodeReadable = true) (j e j' e' : Nat) :
    r.runDecode j e = r.runDecode j' e' := by
  obtain ⟨n, hn, h⟩ := r.decodeReadable_iff.1 h
  unfold Inputs.runDecode
  exact decodeCmd_congr (Slot.getD_congr ⟨_, hn⟩ _ _) fun h66 => Slot.getD_congr (h (by simpa [hn] using h66)) _ _

/-- Everything ENCODE can do, from every state (45_operations R193, 60_exceptions R229). -/
theorem execEncode_cases (s : State) :
    (∃ id, s.req.runEncode s.freeSource s.resetCount = .ok id ∧ execEncode s = .next (s.returnIdentifier id)) ∨
    (∃ k, s.req.runEncode s.freeSource s.resetCount = .error k ∧ execEncode s = .next (s.raiseErr 0#1 k)) := by
  unfold execEncode
  cases hx : s.req.runEncode s.freeSource s.resetCount with
  | error k => exact .inr ⟨k, rfl, rfl⟩
  | ok id => exact .inl ⟨id, rfl, rfl⟩

/-- Everything DECODE can do, from every state (45_operations R193, 60_exceptions R229). -/
theorem execDecode_cases (s : State) :
    (∃ key, s.req.runDecode s.freeSource s.resetCount = .ok key ∧ execDecode s = .next (s.returnKey key)) ∨
    (∃ k, s.req.runDecode s.freeSource s.resetCount = .error k ∧ execDecode s = .next (s.raiseErr 1#1 k)) := by
  unfold execDecode
  cases hx : s.req.runDecode s.freeSource s.resetCount with
  | error k => exact .inr ⟨k, rfl, rfl⟩
  | ok key => exact .inl ⟨key, rfl, rfl⟩

/-- A command of a state whose `REQ.OP` holds a value is that value. -/
theorem State.command_of_op {s : State} {o : BitVec 1} (h : s.req.op = .value o) : s.command = o := by
  simp [State.command, h, Slot.getD]

/-- A busy core whose `REQ.OP` holds a value runs the row which that value is (45_operations R193). -/
theorem State.coreTurn_of_op {s : State} {o : BitVec 1} {i : Instr} (hb : s.busy = true) (ho : s.req.op = .value o)
    (hd : decode (opItem o) = .ok i) : s.coreTurn = exec i s := by
  simp [State.coreTurn, hb, State.command_of_op ho, hd]

/-- Everything the core's turn can do. -/
theorem State.coreTurn_cases (s : State) :
    (s.busy = false ∧ s.coreTurn = .next s) ∨
    (s.busy = true ∧ s.command = 0#1 ∧ s.coreTurn = execEncode s) ∨
    (s.busy = true ∧ s.command = 1#1 ∧ s.coreTurn = execDecode s) := by
  unfold State.coreTurn
  cases hb : s.busy
  · exact .inl ⟨rfl, by simp⟩
  · rcases op_cases s.command with h | h
    · exact .inr (.inl ⟨rfl, h, by simp [h, decode_opItem, exec]⟩)
    · exact .inr (.inr ⟨rfl, h, by simp [h, decode_opItem, exec]⟩)

/-- The core's turn goes on from every state (60_exceptions R229). -/
theorem State.coreTurn_goesOn (s : State) : ∃ t, s.coreTurn = .next t := by
  rcases s.coreTurn_cases with ⟨_, e⟩ | ⟨_, _, e⟩ | ⟨_, _, e⟩
  · exact ⟨_, e⟩
  · rcases execEncode_cases s with ⟨_, _, e'⟩ | ⟨_, _, e'⟩ <;> exact ⟨_, e.trans e'⟩
  · rcases execDecode_cases s with ⟨_, _, e'⟩ | ⟨_, _, e'⟩ <;> exact ⟨_, e.trans e'⟩

/-- The HOST's write of a character is the same write whether the byte is a row or not (45_operations R194). -/
theorem State.charTurn_eq (s : State) (i : Fin 66) (c : Byte) :
    s.charTurn i c = .next ({ s with idSel := i }.putChar i c) := by
  unfold State.charTurn
  cases h : decodeChar c with
  | error e => rfl
  | ok ins =>
    have hbits : ((encode ins).format = .b32sym ∨ (encode ins).format = .idsep) ∧ (encode ins).bits = c := by
      unfold decodeChar at h
      split at h
      · rename_i j hj
        cases h
        obtain ⟨hw, r, hr, hm, rfl⟩ := decode_ok_iff hj
        rw [opcodeTable_sound r hr _ hw hm]
        exact ⟨.inl rfl, rfl⟩
      · obtain ⟨hw, r, hr, hm, rfl⟩ := decode_ok_iff h
        rw [opcodeTable_sound r hr _ hw hm]
        exact ⟨.inr rfl, rfl⟩
    simp only [exec_charRow _ _ hbits.1, hbits.2]

/-- The HOST's read of `ERR` delivers its value (45_operations R195). -/
theorem State.errTurn_eq (s : State) : s.errTurn = .next (s.logRead (.err s.err)) := by
  obtain ⟨i, hi, hx⟩ := decode_errItem s.err
  simp [State.errTurn, hi, hx]

/-- Every action of the HOST but START goes on, and here is the state it leaves. -/
theorem State.hostTurn_write (s : State) (w : HostWrite) :
    ∃ k, s.hostTurn (.write w) = .next { s with inp := s.inp.hostWrite s.freeSource s.resetCount w, idSel := k } := by
  cases w with
  | idChar i c => exact ⟨i, by simp [State.hostTurn, State.charTurn_eq, State.putChar, State.hostWrite]⟩
  | _ => exact ⟨s.idSel, rfl⟩

/-- A HOST_READ leaves the core as it is and adds one value to what the HOST has read. -/
theorem State.hostTurn_read (s : State) (p : Port) : s.hostTurn (.read p) = .next (s.hostRead p) := by
  cases p <;> first | rfl | exact s.errTurn_eq

end Sys2Proof.Machine
end

