-- ==== Sys2Proof/Laws/Parser.lean ====
section
/-! SUPPORT. The split at the separators (spec/43_parser.md R152), the checks on its tokens (R153 to R155), and the bytes of an
assembled identifier by position (spec/42_assembler.md R141). -/

namespace Sys2Proof.Machine

open Sys2Proof

/-- A token ends at the first separator. -/
theorem split_append_separator (a b : List Byte) (ha : ∀ c ∈ a, c ≠ Config.separator) :
    split (a ++ Config.separator :: b) = (a, (split b).1 :: (split b).2) := by
  induction a with
  | nil => simp [split]
  | cons c cs ih =>
    have hc : c ≠ Config.separator := ha c (by simp)
    have hcs := ih fun d hd => ha d (by simp [hd])
    simp only [List.cons_append, split, hc, if_false, hcs]

/-- A text without a separator is one token. -/
theorem split_of_no_separator (a : List Byte) (ha : ∀ c ∈ a, c ≠ Config.separator) : split a = (a, []) := by
  induction a with
  | nil => rfl
  | cons c cs ih =>
    have hc : c ≠ Config.separator := ha c (by simp)
    have hcs := ih fun d hd => ha d (by simp [hd])
    simp only [split, hc, if_false, hcs]

/-- Joining the tokens with separators gives the text back. -/
theorem split_join (l : List Byte) :
    (split l).1 ++ ((split l).2.map fun t => Config.separator :: t).flatten = l := by
  induction l with
  | nil => rfl
  | cons c cs ih =>
    by_cases hc : c = Config.separator
    · subst hc
      simpa [split] using ih
    · simpa [split, hc] using ih

/-- No token holds a separator. -/
theorem split_no_separator (l : List Byte) :
    (∀ c ∈ (split l).1, c ≠ Config.separator) ∧ ∀ t ∈ (split l).2, ∀ c ∈ t, c ≠ Config.separator := by
  induction l with
  | nil => simp [split]
  | cons c cs ih =>
    by_cases hc : c = Config.separator
    · subst hc
      simpa [split] using ih
    · simpa [split, hc] using ih

/-- There is one segment per separator byte. -/
theorem split_segment_count (l : List Byte) :
    (split l).2.length = l.countP fun c => c == Config.separator := by
  induction l with
  | nil => rfl
  | cons c cs ih =>
    by_cases hc : c = Config.separator
    · subst hc
      simp [split, ih]
    · simp [split, hc, ih]

/-- The checks on the tokens pass exactly on a 3-byte prefix and seven segments of 8 bytes. -/
theorem checkTokens_eq_ok {p0 : List Byte} {seg : List (List Byte)} {t : Parsed} :
    checkTokens p0 seg = .ok t ↔
      p0.length = 3 ∧ seg.length = 7 ∧ (∀ u ∈ seg, u.length = 8) ∧
        t.p0.toList = p0 ∧ t.seg = seg ∧ t.s56.toList = seg.flatten := by
  unfold checkTokens
  constructor
  · intro h
    split at h
    · rename_i hp
      split at h
      · rename_i hc
        split at h
        · rename_i hl
          cases h
          exact ⟨hp, hc, hl, rfl, rfl, rfl⟩
        · cases h
      · cases h
    · cases h
  · rintro ⟨hp, hc, hl, h0, hs, h56⟩
    obtain ⟨tp, tseg, ts⟩ := t
    dsimp only at h0 hs h56
    subst h0 hs
    have hl' : ∀ u ∈ tseg, u.length = Config.segmentLength := hl
    rw [dif_pos hp, dif_pos hc, dif_pos hl']
    have hts : (⟨tseg.flatten.toArray, flatten_length_of_segments hc hl'⟩ : Bytes 56) = ts :=
      Vector.toList_inj.mp h56.symm
    have htp : (⟨tp.toList.toArray, hp⟩ : Bytes 3) = tp := Vector.toList_inj.mp rfl
    rw [hts, htp]

/-- The byte of an assembled identifier at a position of the prefix (42_assembler R141). -/
theorem assemble_getElem_prefix (p : Bytes 3) (s : Bytes 56) (i : Nat) (h : i < 3) :
    (assemble p s)[i]'(by omega) = p[i] := by
  simp [assemble, h]

/-- The bytes of an assembled identifier at `3 + 9j` (42_assembler R141). -/
theorem assemble_getElem_separator (p : Bytes 3) (s : Bytes 56) (j : Nat) (h : j < 7) :
    (assemble p s)[3 + 9 * j]'(by omega) = Config.separator := by
  simp [assemble]

/-- The bytes of an assembled identifier that carry the payload string (30_encoding R71). -/
theorem assemble_getElem_payload (p : Bytes 3) (s : Bytes 56) (i : Nat) (h : i < 56) :
    (assemble p s)[4 + i + i / 8]'(by omega) = s[i] := by
  have h1 : ¬ 4 + i + i / 8 < 3 := by omega
  have h2 : (4 + i + i / 8 - 3) % 9 ≠ 0 := by omega
  have h3 : 8 * ((4 + i + i / 8 - 3) / 9) + ((4 + i + i / 8 - 3) % 9 - 1) = i := by omega
  simp [assemble, h1, h2, h3]

end Sys2Proof.Machine
end

