-- ==== Sys2Proof/Laws/PerInstr.lean ====
section
/-! SUPPORT. What holds of every row of spec/opcode_table.json as syntax, one lemma per constructor of Instr. -/

namespace Sys2Proof.Laws.Fits

open Sys2Proof

/-- The row's encoding fits the width of its format. -/
def Statement (i : Instr) : Prop := (encode i).wf = true

theorem encode : Statement .encode := rfl
theorem decode : Statement .decode := rfl
theorem symA : Statement .symA := rfl
theorem symB : Statement .symB := rfl
theorem symC : Statement .symC := rfl
theorem symD : Statement .symD := rfl
theorem symE : Statement .symE := rfl
theorem symF : Statement .symF := rfl
theorem symG : Statement .symG := rfl
theorem symH : Statement .symH := rfl
theorem symI : Statement .symI := rfl
theorem symJ : Statement .symJ := rfl
theorem symK : Statement .symK := rfl
theorem symL : Statement .symL := rfl
theorem symM : Statement .symM := rfl
theorem symN : Statement .symN := rfl
theorem symO : Statement .symO := rfl
theorem symP : Statement .symP := rfl
theorem symQ : Statement .symQ := rfl
theorem symR : Statement .symR := rfl
theorem symS : Statement .symS := rfl
theorem symT : Statement .symT := rfl
theorem symU : Statement .symU := rfl
theorem symV : Statement .symV := rfl
theorem symW : Statement .symW := rfl
theorem symX : Statement .symX := rfl
theorem symY : Statement .symY := rfl
theorem symZ : Statement .symZ := rfl
theorem sym2 : Statement .sym2 := rfl
theorem sym3 : Statement .sym3 := rfl
theorem sym4 : Statement .sym4 := rfl
theorem sym5 : Statement .sym5 := rfl
theorem sym6 : Statement .sym6 := rfl
theorem sym7 : Statement .sym7 := rfl
theorem sep : Statement .sep := rfl
theorem errOK : Statement .errOK := rfl
theorem errInvalidPrefixLength : Statement .errInvalidPrefixLength := rfl
theorem errInvalidInputLength : Statement .errInvalidInputLength := rfl
theorem errInvalidIdentifierLength : Statement .errInvalidIdentifierLength := rfl
theorem errInvalidDataSegmentCount : Statement .errInvalidDataSegmentCount := rfl
theorem errInvalidDataSegmentLength : Statement .errInvalidDataSegmentLength := rfl
theorem errInvalidEncoding : Statement .errInvalidEncoding := rfl
theorem errChecksumMismatch : Statement .errChecksumMismatch := rfl

end Sys2Proof.Laws.Fits
end

