-- ==== Sys2Proof/Laws/Positions.lean ====
section
/-! SUPPORT. An identifier as a text of tokens and as bytes by position: the two views of the same 66 bytes (spec/30_encoding.md R71,
spec/42_assembler.md R141, spec/43_parser.md R152, R157). -/

namespace Sys2Proof.Machine

open Sys2Proof

/-- One group of nine bytes: a separator and eight bytes. -/
theorem drop_group (l : List Byte) (n : Nat) (h : n + 9 ≤ l.length) (hs : l[n] = Config.separator) :
    l.drop n = (Config.separator :: (l.drop (n + 1)).take 8) ++ l.drop (n + 9) := by
  have h1 : l.drop n = l[n] :: l.drop (n + 1) := List.drop_eq_getElem_cons (by omega)
  have h2 : (l.drop (n + 1)).take 8 ++ (l.drop (n + 1)).drop 8 = l.drop (n + 1) := List.take_append_drop 8 _
  rw [List.drop_drop] at h2
  rw [h1, hs, List.cons_append, show n + 9 = n + 1 + 8 by omega, h2]

/-- A 66-byte text with separators at the seven positions is its prefix and seven groups. -/
theorem toList_of_groups (id : Bytes 66) (h : ∀ (j : Nat) (hj : j < 7), id[3 + 9 * j] = Config.separator) :
    id.toList = id.toList.take 3 ++
      (((List.range 7).map fun j => (id.toList.drop (4 + 9 * j)).take 8).map fun t => Config.separator :: t).flatten := by
  have hlen : id.toList.length = 66 := by simp
  have g : ∀ j, j < 7 → id.toList.drop (3 + 9 * j) =
      (Config.separator :: (id.toList.drop (4 + 9 * j)).take 8) ++ id.toList.drop (12 + 9 * j) := by
    intro j hj
    have := drop_group id.toList (3 + 9 * j) (by omega) (by simpa using h j hj)
    rw [this, show 3 + 9 * j + 1 = 4 + 9 * j by omega, show 3 + 9 * j + 9 = 12 + 9 * j by omega]
  have hend : id.toList.drop 66 = [] := List.drop_eq_nil_of_le (by omega)
  have g0 := g 0 (by omega); have g1 := g 1 (by omega); have g2 := g 2 (by omega); have g3 := g 3 (by omega)
  have g4 := g 4 (by omega); have g5 := g 5 (by omega); have g6 := g 6 (by omega)
  simp only [Nat.reduceMul, Nat.reduceAdd, hend] at g0 g1 g2 g3 g4 g5 g6
  conv_lhs => rw [← List.take_append_drop 3 id.toList, g0, g1, g2, g3, g4, g5, g6]
  simp [List.range_succ]

/-- An assembled identifier as a text: the prefix, then each segment behind a separator. -/
theorem assemble_toList (p : Bytes 3) (s : Bytes 56) :
    (assemble p s).toList = p.toList ++ ((segmentsOf s).map fun t => Config.separator :: t).flatten := by
  have hpre : (assemble p s).toList.take 3 = p.toList := by
    refine List.ext_getElem (by simp) fun i h1 h2 => ?_
    have : i < 3 := by simpa using h2
    simp [assemble_getElem_prefix, this]
  have hseg : ((List.range 7).map fun j => ((assemble p s).toList.drop (4 + 9 * j)).take 8) = segmentsOf s := by
    unfold segmentsOf
    refine List.map_congr_left fun j hj => ?_
    have hj7 : j < 7 := by simpa using hj
    refine List.ext_getElem (by simp; omega) fun i h1 h2 => ?_
    have hi : i < 8 := by simp at h1; omega
    have := assemble_getElem_payload p s (8 * j + i) (by omega)
    have e : 4 + (8 * j + i) + (8 * j + i) / 8 = 4 + 9 * j + i := by omega
    simp only [e] at this
    simp [this]
  rw [toList_of_groups _ (assemble_getElem_separator p s), hpre, hseg]

/-- The segments concatenate to the payload string. -/
theorem segmentsOf_flatten (s : Bytes 56) : (segmentsOf s).flatten = s.toList := by
  have hlen : s.toList.length = 56 := by simp
  have h : ∀ j, (s.toList.drop (8 * j)).take 8 ++ s.toList.drop (8 * (j + 1)) = s.toList.drop (8 * j) := by
    intro j
    have := List.take_append_drop 8 (s.toList.drop (8 * j))
    rwa [List.drop_drop, show 8 * j + 8 = 8 * (j + 1) by omega] at this
  have h0 := h 0; have h1 := h 1; have h2 := h 2; have h3 := h 3; have h4 := h 4; have h5 := h 5; have h6 := h 6
  have hend : s.toList.drop 56 = [] := List.drop_eq_nil_of_le (by omega)
  simp only [Nat.reduceMul, Nat.reduceAdd, List.drop_zero, hend, List.append_nil] at h0 h1 h2 h3 h4 h5 h6
  simp only [segmentsOf, List.range_succ, List.range_zero, List.nil_append, List.cons_append, List.map_cons, List.map_nil, List.flatten_cons, List.flatten_nil, Nat.reduceMul, List.append_nil, List.drop_zero]
  rw [h6, h5, h4, h3, h2, h1, h0]

/-- A segment is eight characters of the payload string. -/
theorem mem_segmentsOf {s : Bytes 56} {t : List Byte} (h : t ∈ segmentsOf s) : t.length = 8 ∧ ∀ c ∈ t, c ∈ s.toList := by
  simp only [segmentsOf, List.mem_map, List.mem_range] at h
  obtain ⟨j, hj, rfl⟩ := h
  refine ⟨by simp; omega, fun c hc => List.mem_of_mem_drop (List.mem_of_mem_take hc)⟩

/-- Segments of eight bytes are the slices of their concatenation. -/
theorem segments_unique (seg seg' : List (List Byte)) (h : ∀ u ∈ seg, u.length = 8) (h' : ∀ u ∈ seg', u.length = 8)
    (hf : seg.flatten = seg'.flatten) : seg = seg' := by
  induction seg generalizing seg' with
  | nil =>
    cases seg' with
    | nil => rfl
    | cons u us =>
      have := h' u (by simp)
      have h0 := congrArg List.length hf
      simp [this] at h0; omega
  | cons t ts ih =>
    cases seg' with
    | nil => have := h t (by simp); have h0 := congrArg List.length hf; simp [this] at h0
    | cons u us =>
      have ht := h t (by simp); have hu := h' u (by simp)
      simp only [List.flatten_cons] at hf
      obtain ⟨rfl, hf'⟩ := List.append_inj hf (by omega)
      rw [ih us (fun v hv => h v (by simp [hv])) (fun v hv => h' v (by simp [hv])) hf']

/-- PARSE succeeds exactly on what the assembler makes of parts without a separator (43_parser R156). -/
theorem parse_ok_iff {id : Bytes 66} {t : Parsed} :
    parse 66 id = .ok t ↔ id = assemble t.p0 t.s56 ∧ t.seg = segmentsOf t.s56 ∧ noSeparator t.p0 ∧ noSeparator t.s56 := by
  have hmem : ∀ {n} (v : Bytes n), noSeparator v ↔ ∀ c ∈ v.toList, c ≠ Config.separator := by
    intro n v
    simp only [noSeparator, Vector.mem_toList_iff, Vector.mem_iff_getElem]
    constructor
    · rintro h c ⟨i, hi, rfl⟩; exact h ⟨i, hi⟩
    · intro h i; exact h _ ⟨i.val, i.isLt, rfl⟩
  show checkTokens (split id.toList).1 (split id.toList).2 = .ok t ↔ _
  rw [checkTokens_eq_ok, hmem, hmem]
  constructor
  · rintro ⟨h1, h2, h3, h4, h5, h6⟩
    have hns := split_no_separator id.toList
    have hj := split_join id.toList
    have hseg : t.seg = segmentsOf t.s56 := by
      refine segments_unique _ _ (by rw [h5]; exact h3) (fun u hu => (mem_segmentsOf hu).1) ?_
      rw [segmentsOf_flatten, h6, h5]
    refine ⟨?_, hseg, ?_, ?_⟩
    · apply Vector.toList_inj.mp
      rw [assemble_toList, ← hseg, h4, h5, hj]
    · rw [h4]; exact hns.1
    · rw [h6]; intro c hc
      obtain ⟨u, hu, hcu⟩ := List.mem_flatten.mp hc
      exact hns.2 u hu c hcu
  · rintro ⟨rfl, hseg, hp, hs⟩
    have hsplit : split (assemble t.p0 t.s56).toList = (t.p0.toList, segmentsOf t.s56) := by
      rw [assemble_toList]
      have key : ∀ (segs : List (List Byte)) (p : List Byte), (∀ c ∈ p, c ≠ Config.separator) → (∀ u ∈ segs, ∀ c ∈ u, c ≠ Config.separator) →
          split (p ++ (segs.map fun t => Config.separator :: t).flatten) = (p, segs) := by
        intro segs
        induction segs with
        | nil => intro p hp _; simpa using split_of_no_separator p hp
        | cons u us ih =>
          intro p hp hu
          have hih := ih u (hu u (by simp)) (fun v hv => hu v (by simp [hv]))
          simp only [List.map_cons, List.flatten_cons, List.cons_append]
          rw [split_append_separator _ _ hp, hih]
      exact key _ _ hp fun u hu c hc => hs c ((mem_segmentsOf hu).2 c hc)
    rw [hsplit]
    refine ⟨by simp, by simp [segmentsOf], fun u hu => (mem_segmentsOf hu).1, rfl, hseg, (segmentsOf_flatten _).symm⟩

/-- A position that is no separator position is of the prefix or inside a group. -/
theorem not_separator_position : ∀ i : Fin 66, i ∉ sepPositions → i.val < 3 ∨ (i.val - 3) % 9 ≠ 0 := by decide

/-- Two identifiers are equal when their prefixes, separators and payload characters are. -/
theorem ext_positions (a b : Bytes 66) (h0 : ∀ i : Fin 3, a[i.val] = b[i.val]) (h1 : ∀ j : Fin 7, a[3 + 9 * j.val] = b[3 + 9 * j.val])
    (h2 : ∀ i : Fin 56, a[4 + i.val + i.val / 8] = b[4 + i.val + i.val / 8]) : a = b := by
  ext i hi : 1
  by_cases h3 : i < 3
  · exact h0 ⟨i, h3⟩
  · by_cases h9 : (i - 3) % 9 = 0
    · have := h1 ⟨(i - 3) / 9, by omega⟩
      have e : 3 + 9 * ((i - 3) / 9) = i := by omega
      simpa [e] using this
    · have := h2 ⟨8 * ((i - 3) / 9) + ((i - 3) % 9 - 1), by omega⟩
      have e : 4 + (8 * ((i - 3) / 9) + ((i - 3) % 9 - 1)) + (8 * ((i - 3) / 9) + ((i - 3) % 9 - 1)) / 8 = i := by omega
      simpa [e] using this

/-- No payload character stands at a separator position. -/
theorem payload_position_not_separator : ∀ i : Fin 56, (⟨4 + i.val + i.val / 8, by omega⟩ : Fin 66) ∉ sepPositions := by decide

/-- No prefix byte stands at a separator position. -/
theorem prefix_position_not_separator : ∀ i : Fin 3, (⟨i.val, by omega⟩ : Fin 66) ∉ sepPositions := by decide

/-- The separator positions are `3 + 9j`. -/
theorem separator_position : ∀ j : Fin 7, (⟨3 + 9 * j.val, by omega⟩ : Fin 66) ∈ sepPositions := by decide

/-- The prefix by position of an assembled identifier. -/
theorem prefixSlice_assemble (p : Bytes 3) (s) : prefixSlice (assemble p s) = p := by
  ext i hi : 1
  simp [prefixSlice, assemble_getElem_prefix, hi]

/-- The payload string by position of an assembled identifier. -/
theorem payloadSlice_assemble (p : Bytes 3) (s) : payloadSlice (assemble p s) = s := by
  ext i hi : 1
  simp [payloadSlice, assemble_getElem_payload]

/-- The first token is 3 bytes long, by position (43_parser R153). -/
theorem first_token_by_position (id : Bytes 66) : (split id.toList).1.length = 3 ↔
    (id[3] = 0x5F#8 ∧ id[0] ≠ 0x5F#8 ∧ id[1] ≠ 0x5F#8 ∧ id[2] ≠ 0x5F#8) := by
  have e : id.toList = id[0] :: id[1] :: id[2] :: id[3] :: id.toList.drop 4 := by
    have hlen : id.toList.length = 66 := by simp
    conv_lhs => rw [← List.drop_zero (l := id.toList)]
    rw [List.drop_eq_getElem_cons (by omega), List.drop_eq_getElem_cons (by omega), List.drop_eq_getElem_cons (by omega), List.drop_eq_getElem_cons (by omega)]
    simp
  rw [e]
  by_cases h0 : id[0] = 0x5F#8 <;> by_cases h1 : id[1] = 0x5F#8 <;> by_cases h2 : id[2] = 0x5F#8 <;> by_cases h3 : id[3] = 0x5F#8 <;>
    simp [split, h0, h1, h2, h3]

/-- The segments by position are those of the payload string by position. -/
theorem segments_by_position (id : Bytes 66) : (List.range 7).map (fun j => (id.toList.drop (4 + 9 * j)).take 8) = segmentsOf (payloadSlice id) := by
  unfold segmentsOf
  refine List.map_congr_left fun j hj => ?_
  have hj7 : j < 7 := by simpa using hj
  refine List.ext_getElem (by simp; omega) fun i h1 h2 => ?_
  have hi : i < 8 := by simp at h1; omega
  have e : 4 + (8 * j + i) + (8 * j + i) / 8 = 4 + 9 * j + i := by omega
  simp [payloadSlice, e]

/-- When the checks on the tokens fail, and how: the first failing one decides (43_parser R153 to R155). -/
theorem checkTokens_eq_error (p0 : List Byte) (seg) (k) : checkTokens p0 seg = .error k ↔
    (p0.length ≠ 3 ∧ k = .invalidPrefixLength) ∨ (p0.length = 3 ∧ seg.length ≠ 7 ∧ k = .invalidDataSegmentCount) ∨
    (p0.length = 3 ∧ seg.length = 7 ∧ ¬ (∀ u ∈ seg, u.length = 8) ∧ k = .invalidDataSegmentLength) := by
  unfold checkTokens
  by_cases h1 : p0.length = Config.prefixLength
  · have h1' : p0.length = 3 := h1
    rw [dif_pos h1]
    by_cases h2 : seg.length = Config.segmentCount
    · have h2' : seg.length = 7 := h2
      rw [dif_pos h2]
      by_cases h3 : ∀ u ∈ seg, u.length = Config.segmentLength
      · have h3' : ∀ u ∈ seg, u.length = 8 := h3
        rw [dif_pos h3]
        constructor
        · intro h; cases h
        · rintro (⟨h, _⟩ | ⟨_, h, _⟩ | ⟨_, _, h, _⟩)
          · exact absurd h1' h
          · exact absurd h2' h
          · exact absurd h3' h
      · have h3' : ¬ ∀ u ∈ seg, u.length = 8 := h3
        rw [dif_neg h3]
        simp only [h1', h2', h3', not_false_eq_true, true_and, ne_eq, not_true, false_and, false_or, Except.error.injEq]
        exact eq_comm
    · have h2' : ¬ seg.length = 7 := h2
      rw [dif_neg h2]
      simp only [h1', h2', not_false_eq_true, true_and, ne_eq, not_true, false_and, false_or, or_false, Except.error.injEq]
      exact eq_comm
  · have h1' : ¬ p0.length = 3 := h1
    rw [dif_neg h1]
    simp only [h1', not_false_eq_true, true_and, ne_eq, false_and, or_false, Except.error.injEq]
    exact eq_comm

end Sys2Proof.Machine
end

