-- ==== Sys2Proof/Laws/Steps.lean ====
section
/-! SUPPORT. The step by whose turn it is, what the commands' errors are, and what the invariant sees (spec/10_state.md R24, R32,
spec/60_exceptions.md R231). -/

namespace Sys2Proof.Machine

open Sys2Proof

/-- A step on the core's turn. -/
theorem step_of_isCoreTurn {s : State} (h : s.isCoreTurn) : step s = s.popTurn.coreTurn := by
  rcases h with h | ⟨r, h⟩
  · cases s; simp only at h; subst h; rfl
  · cases s; simp only at h; subst h; rfl

/-- A step on a turn of the HOST. -/
theorem step_of_isHostTurn {s : State} {a} (h : s.isHostTurn a) : step s = s.popTurn.hostTurn a := by
  obtain ⟨r, h⟩ := h
  cases s; simp only at h; subst h; rfl

/-- Every turn is the core's or one of the HOST. -/
theorem State.isTurn_cases (s : State) : s.isCoreTurn ∨ ∃ a, s.isHostTurn a := by
  unfold State.isCoreTurn State.isHostTurn
  cases h : s.agenda with
  | nil => simp
  | cons t r => cases t <;> simp

/-- `ERR_POS` is 0..55 (10_state R24). -/
theorem errDatum_lt (k : ErrKind) : (errDatum k).toNat < 56 := by
  cases k with
  | invalidEncoding pos => simp [errDatum]; omega
  | _ => simp [errDatum]

/-- Only InvalidEncoding has a datum (60_exceptions R210). -/
theorem errDatum_only (k : ErrKind) (h : errDatum k ≠ 0#6) : errCode k = 6#3 := by
  cases k <;> simp_all [errDatum, errCode]

/-- The errors of ENCODE (60_exceptions R231). -/
theorem Inputs.runEncode_error {r : Inputs} {a b k} (h : r.runEncode a b = .error k) : errCode k = 1#3 ∨ errCode k = 2#3 := by
  unfold Inputs.runEncode encodeCmd at h
  split at h
  · cases h; exact .inl rfl
  · split at h
    · cases h; exact .inr rfl
    · cases h

/-- The errors of PARSE (43_parser R150). -/
theorem parse_error {n id k} (h : parse n id = .error k) : errCode k ≠ 2#3 ∧ errCode k ≠ 0#3 := by
  unfold parse checkTokens at h
  repeat (split at h)
  all_goals first | (cases h; done) | (cases h; decide)

/-- The errors of DECODE (60_exceptions R231). -/
theorem Inputs.runDecode_error {r : Inputs} {a b k} (h : r.runDecode a b = .error k) : errCode k ≠ 2#3 ∧ errCode k ≠ 0#3 := by
  unfold Inputs.runDecode decodeCmd at h
  split at h
  · rename_i hp; cases h; exact parse_error hp
  · split at h
    · cases h; exact ⟨by simp [errCode], by simp [errCode]⟩
    · unfold verifyPayload at h
      simp only at h
      split at h
      · cases h
      · cases h; exact ⟨by decide, by decide⟩

/-- A saturated length fits its field. -/
theorem lenFits_saturate (n) : lenFits (.value (saturate n)) := saturate_lt n

/-- A HOST_WRITE keeps the length fields in range. -/
theorem Inputs.lensFit_hostWrite {r : Inputs} (h : r.lensFit) (j e : Nat) (w) : (r.hostWrite j e w).lensFit := by
  obtain ⟨h1, h2, h3⟩ := h
  unfold Inputs.lensFit
  cases w <;> simp only [Inputs.hostWrite, lenFits_saturate, h1, h2, h3, and_self]

theorem Inputs.lensFit_empty : Inputs.empty.lensFit := ⟨trivial, trivial, trivial⟩

/-- A core that has done nothing since reset has the invariant. -/
theorem State.Inv.of_fresh {t : State} (h : t.busy = false) (h' : t.done = false) (e : t.err = 0#3) (p : t.errPos = 0#6) (i : t.idOut = .noValue) (k : t.keyOut = .noValue)
   (l : t.inp.lensFit) (l' : t.req.lensFit) : t.Inv := by
  constructor
  · simp [h]
  · simp [p]
  · simp [p]
  · simp [h]
  · exact l
  · exact l'
  · intro _ _; exact ⟨e, p, i, k⟩
  · simp [h']

/-- The invariant is about the core: it does not see the model's own fields. -/
theorem State.Inv.congr {s t : State} (h : s.Inv) (h1 : t.inp.lensFit) (h2 : t.req = s.req) (h3 : t.busy = s.busy) (h4 : t.done = s.done) (h5 : t.err = s.err)
  (h6 : t.errPos = s.errPos) (h7 : t.idOut = s.idOut) (h8 : t.keyOut = s.keyOut) : t.Inv := by
  obtain ⟨a1, a2, a3, a4, a5, a6, a7, a8⟩ := h
  exact ⟨by rwa [h3, h4], by rwa [h6], by rwa [h6, h5], by rwa [h2, h3], h1, by rwa [h2], by rwa [h3, h4, h5, h6, h7, h8], by rwa [h4, h2, h5, h7, h8]⟩

/-- Taking a turn off the agenda keeps the invariant. -/
theorem State.Inv.popTurn {s : State} (h : s.Inv) : s.popTurn.Inv := State.Inv.congr h h.lens rfl rfl rfl rfl rfl rfl rfl

/-- The core's turn leaves the inputs and the model's own fields alone. -/
theorem State.coreTurn_frame {s t : State} (hs : s.coreTurn = .next t) :
    t.agenda = s.agenda ∧ t.hostLog = s.hostLog ∧ t.inp = s.inp ∧ t.freeSource = s.freeSource := by
  rcases s.coreTurn_cases with ⟨_, e⟩ | ⟨_, _, e⟩ | ⟨_, _, e⟩
  · rw [e] at hs; cases hs; exact ⟨rfl, rfl, rfl, rfl⟩
  · rcases execEncode_cases s with ⟨_, _, e'⟩ | ⟨_, _, e'⟩ <;>
      rw [e, e'] at hs <;> cases hs <;> exact ⟨rfl, rfl, rfl, rfl⟩
  · rcases execDecode_cases s with ⟨_, _, e'⟩ | ⟨_, _, e'⟩ <;>
      rw [e, e'] at hs <;> cases hs <;> exact ⟨rfl, rfl, rfl, rfl⟩

/-- Every step keeps the source of a core's free bytes: cores that have different ones never come to share one (log 23, DESIGN CHOICE). -/
theorem step_freeSource {s t : State} (h : step s = .next t) : t.freeSource = s.freeSource := by
  rcases State.isTurn_cases s with hc | ⟨a, ha⟩
  · rw [step_of_isCoreTurn hc] at h
    exact (State.coreTurn_frame h).2.2.2
  · rw [step_of_isHostTurn ha] at h
    cases a with
    | write w =>
      obtain ⟨_, e⟩ := State.hostTurn_write s.popTurn w
      rw [e] at h; cases h; rfl
    | start =>
      change s.popTurn.start = _ at h
      rcases State.start_cases s.popTurn with ⟨_, e⟩ | ⟨_, _, e⟩ | ⟨_, _, e⟩ <;> rw [e] at h <;> cases h <;> rfl
    | read p =>
      obtain ⟨_, _, e⟩ := State.hostRead_core s.popTurn p
      rw [State.hostTurn_read, e] at h; cases h; rfl
    | readResult op =>
      obtain ⟨_, _, e⟩ := State.hostReadResult_core s.popTurn op
      change Host.Outcome.next (s.popTurn.hostReadResult op) = _ at h
      rw [e] at h; cases h; rfl
    | reset => cases h; rfl

/-- Runs add up. -/
theorem advanceN_add (m n o) : advanceN (m + n) o = advanceN n (advanceN m o) := by
  induction m generalizing o with
  | zero => simp [advanceN]
  | succ m ih => rw [Nat.succ_add]; exact ih _

/-- A run of one more step. -/
theorem advanceN_succ (n o) : advanceN (n + 1) o = advance (advanceN n o) := by
  induction n generalizing o with
  | zero => rfl
  | succ n ih => exact ih (advance o)

end Sys2Proof.Machine
end

