-- ==== Sys2Proof/Tests/Slice0.lean ====
section
/-! SUPPORT. Tests. Expected values are those of spec/95_test_vectors.md and spec/96_test_vectors_decode.md (`T<n>`), or words written out
from the encodings of spec/30_encoding.md. The last part shows, for every statement of Obligations.lean that has hypotheses, a concrete
case that meets them. -/

namespace Sys2Proof.Tests

open Sys2Proof Sys2Proof.Machine

set_option Elab.async false

/-! ### Helpers -/

/-- Bytes from numbers. -/
def bytesOf (n : Nat) (l : List Nat) : Bytes n := Vector.ofFn fun i => BitVec.ofNat 8 (l.getD i.val 0)

/-- The state a step goes on to, or the reset state. -/
def after : Host.Outcome State Fault Refusal → State
  | .next t => t
  | .fault _ => State.reset
  | .refused _ => State.reset

/-- The step goes on. -/
def goesOn : Host.Outcome State Fault Refusal → Bool
  | .next _ => true
  | .fault _ => false
  | .refused _ => false

theorem eq_next_of_goesOn {o : Host.Outcome State Fault Refusal} (h : goesOn o = true) : o = .next (after o) := by
  cases o with
  | next t => rfl
  | fault r => cases h
  | refused r => cases h

/-- The input registers with a value in each: lengths, prefix, key and identifier. -/
def inputs (o : BitVec 1) (np nk n : Nat) (p : Bytes 3) (k : Bytes 32) (id : Bytes 66) : Inputs where
  op     := .value o
  pfxLen := .value np
  pfx    := .value p
  keyLen := .value nk
  keyIn  := .value k
  idLen  := .value n
  idIn   := .value id

/-- "ZBC" -/
def zbc : Bytes 3 :=
  #v[0x5A, 0x42, 0x43]

/-- `KS` (95_test_vectors) -/
def ks : Bytes 32 :=
  #v[0x33, 0x5E, 0x00, 0x71, 0x35, 0x16, 0x04, 0x4C, 0xF9, 0x1B, 0x5C, 0x9D, 0x65, 0x2A, 0x09, 0x52,
    0x18, 0x0B, 0xCB, 0xCF, 0xBB, 0x40, 0xAA, 0x72, 0x73, 0xE1, 0xD6, 0x08, 0x07, 0x18, 0xA0, 0xA4]

/-- `SRCID` (95_test_vectors) -/
def srcid : Bytes 66 :=
  #v[0x5A, 0x42, 0x43, 0x5F, 0x47, 0x4E, 0x50, 0x41, 0x41, 0x34, 0x4A, 0x56, 0x5F, 0x43, 0x59, 0x43,
    0x45, 0x5A, 0x36, 0x49, 0x33, 0x5F, 0x4C, 0x53, 0x4F, 0x57, 0x4B, 0x4B, 0x51, 0x4A, 0x5F, 0x4B,
    0x49, 0x4D, 0x41, 0x58, 0x53, 0x36, 0x50, 0x5F, 0x58, 0x4E, 0x41, 0x4B, 0x55, 0x34, 0x54, 0x54,
    0x5F, 0x34, 0x48, 0x4C, 0x41, 0x51, 0x42, 0x59, 0x59, 0x5F, 0x55, 0x43, 0x53, 0x4C, 0x36, 0x51,
    0x55, 0x54]

/-- `SRCID` with `8` at payload index 18 -/
def badId : Bytes 66 :=
  #v[0x5A, 0x42, 0x43, 0x5F, 0x47, 0x4E, 0x50, 0x41, 0x41, 0x34, 0x4A, 0x56, 0x5F, 0x43, 0x59, 0x43,
    0x45, 0x5A, 0x36, 0x49, 0x33, 0x5F, 0x4C, 0x53, 0x38, 0x57, 0x4B, 0x4B, 0x51, 0x4A, 0x5F, 0x4B,
    0x49, 0x4D, 0x41, 0x58, 0x53, 0x36, 0x50, 0x5F, 0x58, 0x4E, 0x41, 0x4B, 0x55, 0x34, 0x54, 0x54,
    0x5F, 0x34, 0x48, 0x4C, 0x41, 0x51, 0x42, 0x59, 0x59, 0x5F, 0x55, 0x43, 0x53, 0x4C, 0x36, 0x51,
    0x55, 0x54]

/-- `SRCID` with the `E` at payload index 11 in lower case -/
def lowerId : Bytes 66 :=
  #v[0x5A, 0x42, 0x43, 0x5F, 0x47, 0x4E, 0x50, 0x41, 0x41, 0x34, 0x4A, 0x56, 0x5F, 0x43, 0x59, 0x43,
    0x65, 0x5A, 0x36, 0x49, 0x33, 0x5F, 0x4C, 0x53, 0x4F, 0x57, 0x4B, 0x4B, 0x51, 0x4A, 0x5F, 0x4B,
    0x49, 0x4D, 0x41, 0x58, 0x53, 0x36, 0x50, 0x5F, 0x58, 0x4E, 0x41, 0x4B, 0x55, 0x34, 0x54, 0x54,
    0x5F, 0x34, 0x48, 0x4C, 0x41, 0x51, 0x42, 0x59, 0x59, 0x5F, 0x55, 0x43, 0x53, 0x4C, 0x36, 0x51,
    0x55, 0x54]

/-- `SRCID` with the first two letters of the prefix in lower case -/
def smallId : Bytes 66 :=
  #v[0x7A, 0x62, 0x43, 0x5F, 0x47, 0x4E, 0x50, 0x41, 0x41, 0x34, 0x4A, 0x56, 0x5F, 0x43, 0x59, 0x43,
    0x45, 0x5A, 0x36, 0x49, 0x33, 0x5F, 0x4C, 0x53, 0x4F, 0x57, 0x4B, 0x4B, 0x51, 0x4A, 0x5F, 0x4B,
    0x49, 0x4D, 0x41, 0x58, 0x53, 0x36, 0x50, 0x5F, 0x58, 0x4E, 0x41, 0x4B, 0x55, 0x34, 0x54, 0x54,
    0x5F, 0x34, 0x48, 0x4C, 0x41, 0x51, 0x42, 0x59, 0x59, 0x5F, 0x55, 0x43, 0x53, 0x4C, 0x36, 0x51,
    0x55, 0x54]

/-- T61 -/
def longSeg : Bytes 66 :=
  #v[0x5A, 0x42, 0x43, 0x5F, 0x47, 0x4E, 0x50, 0x41, 0x41, 0x34, 0x4A, 0x5F, 0x56, 0x43, 0x59, 0x43,
    0x45, 0x5A, 0x36, 0x49, 0x33, 0x5F, 0x4C, 0x53, 0x4F, 0x57, 0x4B, 0x4B, 0x51, 0x4A, 0x5F, 0x4B,
    0x49, 0x4D, 0x41, 0x58, 0x53, 0x36, 0x50, 0x5F, 0x58, 0x4E, 0x41, 0x4B, 0x55, 0x34, 0x54, 0x54,
    0x5F, 0x34, 0x48, 0x4C, 0x41, 0x51, 0x42, 0x59, 0x59, 0x5F, 0x55, 0x43, 0x53, 0x4C, 0x36, 0x51,
    0x55, 0x54]

/-- T56 -/
def sixSeg : Bytes 66 :=
  #v[0x5A, 0x42, 0x43, 0x5F, 0x47, 0x4E, 0x50, 0x41, 0x41, 0x34, 0x4A, 0x56, 0x5F, 0x43, 0x59, 0x43,
    0x45, 0x5A, 0x36, 0x49, 0x33, 0x5F, 0x4C, 0x53, 0x4F, 0x57, 0x4B, 0x4B, 0x51, 0x4A, 0x5F, 0x4B,
    0x49, 0x4D, 0x41, 0x58, 0x53, 0x36, 0x50, 0x5F, 0x58, 0x4E, 0x41, 0x4B, 0x55, 0x34, 0x54, 0x54,
    0x5F, 0x34, 0x48, 0x4C, 0x41, 0x51, 0x42, 0x59, 0x59, 0x55, 0x43, 0x53, 0x4C, 0x36, 0x51, 0x55,
    0x54, 0x41]

/-- T55b -/
def longPfx : Bytes 66 :=
  #v[0x5A, 0x42, 0x43, 0x44, 0x5F, 0x47, 0x4E, 0x50, 0x41, 0x41, 0x34, 0x4A, 0x56, 0x5F, 0x43, 0x59,
    0x43, 0x45, 0x5A, 0x36, 0x49, 0x33, 0x5F, 0x4C, 0x53, 0x4F, 0x57, 0x4B, 0x4B, 0x51, 0x4A, 0x5F,
    0x4B, 0x49, 0x4D, 0x41, 0x58, 0x53, 0x36, 0x50, 0x5F, 0x58, 0x4E, 0x41, 0x4B, 0x55, 0x34, 0x54,
    0x54, 0x5F, 0x34, 0x48, 0x4C, 0x41, 0x51, 0x42, 0x59, 0x59, 0x5F, 0x55, 0x43, 0x53, 0x4C, 0x36,
    0x51, 0x55]

/-- Byte `i` of a data register that holds a value. -/
def byteOf {n : Nat} (r : Slot (Bytes n)) (i : Fin n) : Option Byte :=
  match r with
  | .noValue => none
  | .value v => some v[i]

/-- An idle core with valid operands of both commands, and one turn to come. -/
def idle (o : BitVec 1) (t : Turn) : State := { State.reset with inp := inputs o 3 32 66 zbc ks srcid, agenda := [t] }

/-- A core with an operation in flight, whose inputs were changed after the START, and one turn to come. -/
def flying (o : BitVec 1) (t : Turn) : State :=
  { idle o t with req := inputs o 3 32 66 zbc ks srcid, inp := inputs o 2 0 0 zbc ks srcid, busy := true }

/-- The same core after a START, the core's turn to come. -/
def flyingFrom (s : State) : State := { s with req := s.inp, busy := true, done := false, agenda := [.core] }

/-- A request of DECODE for the given identifier in flight. -/
def decoding (id : Bytes 66) : State := { flying 1#1 .core with req := inputs 1#1 3 32 66 zbc ks id }

/-! ### WellFormed: every check refuses an ill-formed term -/

theorem test_wf_cmd : (⟨.cmd, 0b10#8⟩ : Item).wf = false ∧ (⟨.cmd, 0b1#8⟩ : Item).wf = true := by decide
theorem test_wf_errcode : (⟨.errcode, 0b1000#8⟩ : Item).wf = false ∧ (⟨.errcode, 0b111#8⟩ : Item).wf = true := by decide
theorem test_wf_pfx : (HostWrite.pfx (Vector.replicate 3 none)).wf = false := by decide
theorem test_wf_keyIn : (HostWrite.keyIn (Vector.replicate 32 none)).wf = false := by decide
theorem test_wf_idIn : (HostWrite.idIn (Vector.replicate 66 none)).wf = false := by decide
theorem test_wf_action : (HostAction.write (.pfx (Vector.replicate 3 none))).wf = false := by decide
theorem test_wf_turn : (Turn.host (.write (.pfx (Vector.replicate 3 none)))).wf = false ∧ Turn.core.wf = true := by decide

/-! ### Decode: every constructor's word, bit by bit (30_encoding R71, R74, R76, R77) -/

theorem test_decode_cmd : [0b0#8, 0b1#8].map (fun c => (decode ⟨.cmd, c⟩).toOption) = [some .encode, some .decode] := by decide
theorem test_decode_sym_AtoM :
    [0b01000001#8, 0b01000010#8, 0b01000011#8, 0b01000100#8, 0b01000101#8, 0b01000110#8, 0b01000111#8,
    0b01001000#8, 0b01001001#8, 0b01001010#8, 0b01001011#8, 0b01001100#8, 0b01001101#8].map
      (fun c => (decode ⟨.b32sym, c⟩).toOption) =
    [some .symA, some .symB, some .symC, some .symD, some .symE, some .symF, some .symG, some .symH, some .symI, some .symJ, some .symK, some .symL, some .symM] := by
  decide +kernel
theorem test_decode_sym_NtoZ :
    [0b01001110#8, 0b01001111#8, 0b01010000#8, 0b01010001#8, 0b01010010#8, 0b01010011#8, 0b01010100#8,
    0b01010101#8, 0b01010110#8, 0b01010111#8, 0b01011000#8, 0b01011001#8, 0b01011010#8].map
      (fun c => (decode ⟨.b32sym, c⟩).toOption) =
    [some .symN, some .symO, some .symP, some .symQ, some .symR, some .symS, some .symT, some .symU, some .symV, some .symW, some .symX, some .symY, some .symZ] := by
  decide +kernel
theorem test_decode_sym_2to7 :
    [0b00110010#8, 0b00110011#8, 0b00110100#8, 0b00110101#8, 0b00110110#8, 0b00110111#8].map
      (fun c => (decode ⟨.b32sym, c⟩).toOption) =
    [some .sym2, some .sym3, some .sym4, some .sym5, some .sym6, some .sym7] := by
  decide +kernel
theorem test_decode_sep : (decode ⟨.idsep, 0b01011111#8⟩).toOption = some .sep := by decide
theorem test_decode_errcode :
    [0b000#8, 0b001#8, 0b010#8, 0b011#8, 0b100#8, 0b101#8, 0b110#8, 0b111#8].map (fun c => (decode ⟨.errcode, c⟩).toOption) =
    [some .errOK, some .errInvalidPrefixLength, some .errInvalidInputLength,
     some .errInvalidIdentifierLength, some .errInvalidDataSegmentCount, some .errInvalidDataSegmentLength,
     some .errInvalidEncoding, some .errChecksumMismatch] := by
  decide +kernel
/-- 41_base32 R123: lowercase, `0`, `1`, `8`, `9`, `=` and the neighbours of the alphabet are no symbols. -/
theorem test_decode_rejects :
    ∀ c ∈ [0x61#8, 0x7A#8, 0x30#8, 0x31#8, 0x38#8, 0x39#8, 0x3D#8, 0x40#8, 0x5B#8, 0x60#8, 0x7B#8, 0x00#8, 0xFF#8],
      (decode ⟨.b32sym, c⟩).toOption = none := by
  decide +kernel
theorem test_decode_dash : (decodeChar 0x2D#8).toOption = none ∧ (decodeChar 0x5F#8).toOption = some .sep := by decide +kernel
/-- No two rows of one format match the same bits. -/
theorem test_rows_do_not_overlap :
    opcodeTable.Pairwise fun r q => r.format ≠ q.format ∨ (r.pattern ^^^ q.pattern) &&& (r.mask &&& q.mask) ≠ 0#8 := by
  decide +kernel
theorem test_table_words :
    decodeTableWord 1 1 = some .decode ∧ decodeTableWord 3 1 = some .errInvalidPrefixLength ∧
    decodeTableWord 8 0 = some .encode ∧ decodeTableWord 8 7 = some .errChecksumMismatch ∧
    decodeTableWord 8 0x5F = some .sep ∧ decodeTableWord 8 0x37 = some .sym7 ∧ decodeTableWord 8 0x38 = none := by
  decide +kernel

/-! ### The units -/

/-- T48a, T48e, T48f, T48g -/
theorem test_upcase3 :
    upcase3 (bytesOf 3 [0x7A, 0x62, 0x63]) = bytesOf 3 [0x5A, 0x42, 0x43] ∧
    upcase3 (bytesOf 3 [0x60, 0x7A, 0x40]) = bytesOf 3 [0x60, 0x5A, 0x40] ∧
    upcase3 (bytesOf 3 [0xC3, 0xA9, 0x7A]) = bytesOf 3 [0xC3, 0xA9, 0x5A] ∧
    upcase3 (bytesOf 3 [0x61, 0x7A, 0x5F]) = bytesOf 3 [0x41, 0x5A, 0x5F] := by
  decide +kernel
/-- T49 -/
theorem test_assemble :
    assemble (bytesOf 3 [0x41, 0x42, 0x43])
      (bytesOf 56 ([0x41, 0x42, 0x43, 0x44, 0x45, 0x46, 0x47, 0x48, 0x49, 0x4A, 0x4B, 0x4C, 0x4D, 0x4E, 0x4F, 0x50] ++
        [0x51, 0x52, 0x53, 0x54, 0x55, 0x56, 0x57, 0x58, 0x59, 0x5A, 0x32, 0x33, 0x34, 0x35, 0x36, 0x37] ++
        [0x41, 0x42, 0x43, 0x44, 0x45, 0x46, 0x47, 0x48, 0x49, 0x4A, 0x4B, 0x4C, 0x4D, 0x4E, 0x4F, 0x50] ++
        [0x51, 0x52, 0x53, 0x54, 0x55, 0x56, 0x57, 0x58])) =
    bytesOf 66 ([0x41, 0x42, 0x43, 0x5F, 0x41, 0x42, 0x43, 0x44, 0x45, 0x46, 0x47, 0x48, 0x5F, 0x49, 0x4A, 0x4B] ++
      [0x4C, 0x4D, 0x4E, 0x4F, 0x50, 0x5F, 0x51, 0x52, 0x53, 0x54, 0x55, 0x56, 0x57, 0x58, 0x5F, 0x59] ++
      [0x5A, 0x32, 0x33, 0x34, 0x35, 0x36, 0x37, 0x5F, 0x41, 0x42, 0x43, 0x44, 0x45, 0x46, 0x47, 0x48] ++
      [0x5F, 0x49, 0x4A, 0x4B, 0x4C, 0x4D, 0x4E, 0x4F, 0x50, 0x5F, 0x51, 0x52, 0x53, 0x54, 0x55, 0x56] ++
      [0x57, 0x58]) := by
  decide +kernel
/-- T42 -/
theorem test_b32enc :
    b32enc (bytesOf 35 (List.range 35)) =
    bytesOf 56 ([0x41, 0x41, 0x41, 0x51, 0x45, 0x41, 0x59, 0x45, 0x41, 0x55, 0x44, 0x41, 0x4F, 0x43, 0x41, 0x4A] ++
      [0x42, 0x49, 0x46, 0x51, 0x59, 0x44, 0x49, 0x4F, 0x42, 0x34, 0x49, 0x42, 0x43, 0x45, 0x51, 0x54] ++
      [0x43, 0x51, 0x4B, 0x52, 0x4D, 0x46, 0x59, 0x59, 0x44, 0x45, 0x4E, 0x42, 0x57, 0x48, 0x41, 0x35] ++
      [0x44, 0x59, 0x50, 0x53, 0x41, 0x49, 0x4A, 0x43]) := by
  decide +kernel
/-- T43 and T44: the bit order -/
theorem test_b32enc_bit_order :
    (b32enc (bytesOf 35 [0x80]))[0] = 0x51#8 ∧ (b32enc (bytesOf 35 (List.replicate 34 0 ++ [0x01])))[55] = 0x42#8 := by
  decide +kernel
/-- T46, decoded -/
theorem test_b32dec :
    (b32dec (payloadSlice srcid)).toOption = some (payload ks (bytesOf 3 [0xBF, 0x42, 0x93])) := by
  decide +kernel
/-- T47: the index of the first bad character -/
theorem test_b32dec_bad :
    firstBad ((payloadSlice srcid).set 55 0x40#8 |>.set 54 0x5B#8) = some 54 ∧
    firstBad ((payloadSlice srcid).set 17 0x5F#8) = some 17 ∧ firstBad ((payloadSlice srcid).set 11 0x65#8) = some 11 := by
  decide +kernel
/-- T29: the checksum of `KS` under "ZBC" -/
theorem test_csum3 : csum3 (hashInput ks zbc) = bytesOf 3 [0xBF, 0x42, 0x93] := by
  decide +kernel
/-- T1 -/
theorem test_encode_source_vector : encodeKey zbc ks = srcid := by
  have h : upcase3 zbc = zbc := by decide +kernel
  unfold encodeKey
  simp only [h, test_csum3]
  decide +kernel
/-- The checks of `SRCID` before the checksum, T50. -/
theorem test_parse_source_vector : parse 66 srcid = .ok ⟨zbc, segmentsOf (payloadSlice srcid), payloadSlice srcid⟩ := by
  rw [parse_ok_iff]
  have h : srcid = assemble zbc (payloadSlice srcid) := by decide +kernel
  have h1 : ∀ i : Fin 3, zbc[i] ≠ Config.separator := by decide +kernel
  have h2 : ∀ i : Fin 56, (payloadSlice srcid)[i] ≠ Config.separator := by decide +kernel
  exact ⟨h, rfl, h1, h2⟩
/-- `B32DEC` of the payload string of `SRCID`, T46. -/
theorem test_b32dec_source_vector : b32dec (payloadSlice srcid) = .ok (payload ks (csum3 (hashInput ks zbc))) := by
  rw [test_csum3]
  have h : firstBad (payloadSlice srcid) = none := by decide +kernel
  have h' : charsToBytes (payloadSlice srcid) = payload ks (bytesOf 3 [0xBF, 0x42, 0x93]) := by decide +kernel
  simp only [b32dec, h, h']
/-- T2 -/
theorem test_decode_source_vector : decodeCmd 66 srcid = .ok ks := by
  have h : upcase3 zbc = zbc := by decide +kernel
  have hc : ∀ c : Bytes 3, cscmp c c = true := by intro c; simp [cscmp]
  simp only [decodeCmd, test_parse_source_vector, test_b32dec_source_vector, verifyPayload, payloadKey_payload,
    payloadChecksum_payload, h, hc, if_true]
/-- T55b, T56, T61 and T70 -/
theorem test_decode_errors :
    statusOf (decodeCmd 66 longPfx) = (1#3, 0#6) ∧ statusOf (decodeCmd 66 sixSeg) = (4#3, 0#6) ∧
    statusOf (decodeCmd 66 longSeg) = (5#3, 0#6) ∧ statusOf (decodeCmd 66 badId) = (6#3, 18#6) ∧
    statusOf (decodeCmd 65 srcid) = (3#3, 0#6) := by
  decide +kernel

/-! ### One step -/

/-- T4: only the prefix length is read. -/
theorem test_encode_prefix_length :
    let t := after (step { State.reset with
      busy := true, req := { Inputs.empty with op := .value 0#1, pfxLen := .value 2 } })
    t.err = 1#3 ∧ t.errPos = 0#6 ∧ t.done = true ∧ t.busy = false ∧ t.idOut = .any ∧ t.keyOut = .noValue := by
  decide +kernel
/-- T6 -/
theorem test_encode_input_length :
    let t := after (step { flying 0#1 .core with req := { inputs 0#1 3 30 66 zbc ks srcid with idLen := .noValue } })
    t.err = 2#3 ∧ t.idOut = .any := by
  decide +kernel
/-- An invalid character: the position goes to `ERR_POS`. -/
theorem test_decode_position :
    let t := after (step (decoding badId))
    t.err = 6#3 ∧ t.errPos = 18#6 ∧ t.keyOut = .any ∧ t.idOut = .noValue ∧ t.done = true := by
  decide +kernel
/-- T3 -/
theorem test_decode_identifier_length :
    let t := after (step { decoding srcid with req := inputs 1#1 3 32 65 zbc ks srcid })
    t.err = 3#3 ∧ t.errPos = 0#6 := by
  decide +kernel
/-- The placed words run, from reset, one of each format. -/
theorem test_step_symbol : byteOf (after (step (State.reset.withFetchWord 8 0b01000001))).inp.idIn 0 = some 0x41#8 := by
  decide +kernel
theorem test_step_separator : byteOf (after (step (State.reset.withFetchWord 8 0b01011111))).inp.idIn 0 = some 0x5F#8 := by
  decide +kernel
theorem test_step_error_code : (after (step (State.reset.withFetchWord 3 0b111))).hostLog = [.err 7#3] := by
  decide +kernel
theorem test_step_encode :
    let t := after (step (State.reset.withFetchWord 8 0))
    t.done = true ∧ t.err = 1#3 ∧ t.idOut = .any := by
  decide +kernel
theorem test_step_decode :
    let t := after (step (State.reset.withFetchWord 8 1))
    t.done = true ∧ t.err = 3#3 ∧ t.keyOut = .any := by
  decide +kernel
/-- 45_operations R192: a second START is ignored. -/
theorem test_start_while_busy : (after (step (flying 0#1 (.host .start)))).req = inputs 0#1 3 32 66 zbc ks srcid := by
  decide +kernel
/-- 95_test_vectors P3: with `PFX_LEN` = 3, `KEY_LEN` = 32 and `KEY_IN` unwritten, "the model would refuse the START"; with
`KEY_LEN` = 30 the START is legal (line 3 there). -/
theorem test_start_unwritten_key :
    let r := { Inputs.empty with op := .value 0#1, pfxLen := .value 3, keyLen := .value 32, pfx := .value (Vector.replicate 3 0x7A#8) }
    step { State.reset with inp := r, agenda := [.host .start] } = .refused .unwrittenInput ∧
      goesOn (step { State.reset with inp := { r with keyLen := .value 30 }, agenda := [.host .start] }) = true :=
  ⟨rfl, by decide +kernel⟩
/-- 10_state R30: with one byte of `KEY_IN` written (45_operations R194) the register is none that nothing has written; START goes on and
copies the byte. -/
theorem test_start_partly_written_key :
    let r := { Inputs.empty with op := .value 0#1, pfxLen := .value 3, keyLen := .value 32, pfx := .value (Vector.replicate 3 0x7A#8) }
    let s := after (step { State.reset with inp := r, agenda := [.host (.write (.keyIn (Vector.ofFn fun i => if i = 31 then some 0x41#8 else none))),
                                                                   .host .start] })
    (after (step s)).busy = true ∧ byteOf (after (step s)).req.keyIn 31 = some 0x41#8 := by
  decide +kernel
/-- 70_reset_and_hazards R240: RESET abandons the operation. -/
theorem test_reset_in_flight :
    let t := after (step (flying 0#1 (.host .reset)))
    t.busy = false ∧ t.done = false ∧ t.inp.op = .noValue ∧ t.idOut = .noValue := by
  decide +kernel

/-! ### Witnesses: every statement with hypotheses has a case that meets them, and so has each of its clauses -/

/-- A DECODE of the identifier is in flight with everything it reads. -/
theorem decoding_holds (id : Bytes 66) : (decoding id).req.idLen = .value 66 ∧ (decoding id).req.idIn = .value id :=
  ⟨rfl, rfl⟩

theorem test_witness_DecodeAndEncodeAgree : decode ⟨.b32sym, 0x51#8⟩ = .ok .symQ := rfl
theorem test_witness_SymbolTable :
    val 0x5A#8 = some 25#5 ∧ val 0x37#8 = some 31#5 ∧ symValue .sym7 = some 31#5 ∧ val 0x38#8 = none ∧ val 0x5B#8 = none := by
  decide
theorem test_witness_ErrorKindsHaveTheirCodes :
    errCode (.invalidEncoding 0) = errCode (.invalidEncoding 55) ∧ errDatum (.invalidEncoding 55) ≠ 0#6 := by
  decide
theorem test_witness_StepRunsTheDecodedRow_busy :
    (flying 1#1 .core).isCoreTurn ∧ (flying 1#1 .core).busy = true ∧ (flying 1#1 .core).req.op = .value 1#1 ∧
      decode (opItem 1#1) = .ok .decode :=
  ⟨.inr ⟨_, rfl⟩, rfl, rfl, rfl⟩
theorem test_witness_StepRunsTheDecodedRow_idle : (idle 0#1 .core).isCoreTurn ∧ (idle 0#1 .core).busy = false :=
  ⟨.inr ⟨_, rfl⟩, rfl⟩
theorem test_witness_StepRunsTheDecodedRow_char :
    (idle 0#1 (.host (.write (.idChar 65 0x5F#8)))).isHostTurn (.write (.idChar 65 0x5F#8)) ∧ decodeChar 0x5F#8 = .ok .sep :=
  ⟨⟨_, rfl⟩, rfl⟩
theorem test_witness_StepRunsTheDecodedRow_err :
    (idle 0#1 (.host (.read .err))).isHostTurn (.read .err) ∧ decode (errItem 0#3) = .ok .errOK :=
  ⟨⟨_, rfl⟩, rfl⟩
theorem test_witness_PlacedWordRunsNext : decodeTableWord 8 0x41 = some .symA := by decide +kernel
theorem test_witness_reset_turn :
    (flying 0#1 (.host .reset)).isHostTurn .reset ∧ (idle 1#1 (.host .reset)).isHostTurn .reset :=
  ⟨⟨_, rfl⟩, ⟨_, rfl⟩⟩
/-- For OnlyResetAbandonsAnOperation, second clause, and TheHostCannotDisturbAnOperation. -/
theorem test_witness_turn_in_flight :
    (flying 0#1 (.host (.write (.op 1#1)))).busy = true ∧
      (flying 0#1 (.host (.write (.op 1#1)))).isHostTurn (.write (.op 1#1)) ∧ HostAction.write (.op 1#1) ≠ .reset :=
  ⟨rfl, ⟨_, rfl⟩, by decide⟩
theorem test_witness_StartSamplesOrIsIgnored_ignored :
    (flying 0#1 (.host .start)).isHostTurn .start ∧ (flying 0#1 (.host .start)).busy = true :=
  ⟨⟨_, rfl⟩, rfl⟩
theorem test_witness_StartSamplesOrIsIgnored_sampled :
    (idle 0#1 (.host .start)).isHostTurn .start ∧ (idle 0#1 (.host .start)).busy = false ∧
      (idle 0#1 (.host .start)).inp.readable = true :=
  ⟨⟨_, rfl⟩, rfl, by decide +kernel⟩
theorem test_witness_StartSamplesOrIsIgnored_refused :
    { State.reset with agenda := [.host .start] }.isHostTurn .start ∧
      { State.reset with agenda := [.host .start] }.busy = false ∧
      { State.reset with agenda := [.host .start] }.inp.readable = false :=
  ⟨⟨_, rfl⟩, rfl, rfl⟩
theorem test_witness_EncodeCompletes_prefix :
    let s := { flying 0#1 .core with req := inputs 0#1 2 32 66 zbc ks srcid }
    s.req.pfxLen = .value 2 ∧ 2 ≠ 3 :=
  ⟨rfl, by decide⟩
theorem test_witness_EncodeCompletes_key :
    let s := { flying 0#1 .core with req := inputs 0#1 3 31 66 zbc ks srcid }
    s.req.pfxLen = .value 3 ∧ s.req.keyLen = .value 31 ∧ 31 ≠ 32 :=
  ⟨rfl, rfl, by decide⟩
theorem test_witness_EncodeCompletes_ok : (flying 0#1 .core).req.encodeRequest zbc ks :=
  ⟨rfl, rfl, rfl, rfl⟩
theorem test_witness_DecodeCompletes_length :
    let s := { flying 1#1 .core with req := inputs 1#1 3 32 65 zbc ks srcid }
    s.req.idLen = .value 65 ∧ 65 ≠ 66 :=
  ⟨rfl, by decide⟩
theorem test_witness_DecodeCompletes_structure :
    (decoding longSeg).req.idLen = .value 66 ∧ (decoding longSeg).req.idIn = .value longSeg ∧
      parse 66 longSeg = .error .invalidDataSegmentLength := by
  refine ⟨(decoding_holds _).1, (decoding_holds _).2, ?_⟩
  show checkTokens (split longSeg.toList).1 (split longSeg.toList).2 = _
  rw [checkTokens_eq_error]
  exact .inr (.inr ⟨by decide +kernel, by decide +kernel, by decide +kernel, rfl⟩)
/-- An identifier of the assembler's whose parts hold no separator is parsed into them. -/
theorem parse_assembled {p : Bytes 3} {s : Bytes 56} (hp : noSeparator p) (hs : noSeparator s) :
    parse 66 (assemble p s) = .ok ⟨p, segmentsOf s, s⟩ :=
  parse_ok_iff.mpr ⟨rfl, rfl, hp, hs⟩
theorem noSeparator_zbc : noSeparator zbc := by
  have h : ∀ i : Fin 3, zbc[i] ≠ Config.separator := by decide +kernel
  exact h
theorem test_witness_DecodeCompletes_character :
    (decoding badId).req.idLen = .value 66 ∧ (decoding badId).req.idIn = .value badId ∧
      parse 66 badId = .ok ⟨zbc, segmentsOf (payloadSlice badId), payloadSlice badId⟩ ∧
      b32dec (payloadSlice badId) = .error 18 := by
  refine ⟨(decoding_holds _).1, (decoding_holds _).2, ?_, ?_⟩
  · have h : badId = assemble zbc (payloadSlice badId) := by decide +kernel
    have hs : ∀ i : Fin 56, (payloadSlice badId)[i] ≠ Config.separator := by decide +kernel
    exact (congrArg (parse 66) h).trans (parse_assembled noSeparator_zbc hs)
  · have h : firstBad (payloadSlice badId) = some 18 := by decide +kernel
    simp [b32dec, h]
/-- The last segment of `SRCID` ends in the three checksum bytes; with its last character changed to `A` they are another checksum. -/
theorem test_witness_DecodeCompletes_checksum :
    let id := assemble zbc ((payloadSlice srcid).set 55 0x41#8)
    let pay := charsToBytes ((payloadSlice srcid).set 55 0x41#8)
    (decoding id).req.idLen = .value 66 ∧ (decoding id).req.idIn = .value id ∧
      parse 66 id = .ok ⟨zbc, segmentsOf ((payloadSlice srcid).set 55 0x41#8), (payloadSlice srcid).set 55 0x41#8⟩ ∧
      b32dec ((payloadSlice srcid).set 55 0x41#8) = .ok pay ∧
      payloadChecksum pay ≠ csum3 (hashInput (payloadKey pay) (upcase3 zbc)) := by
  intro id pay
  refine ⟨(decoding_holds _).1, (decoding_holds _).2, ?_, ?_, ?_⟩
  · have hs : ∀ i : Fin 56, ((payloadSlice srcid).set 55 0x41#8)[i] ≠ Config.separator := by decide +kernel
    exact parse_assembled noSeparator_zbc hs
  · have h : firstBad ((payloadSlice srcid).set 55 0x41#8) = none := by decide +kernel
    simp only [b32dec, h]
    rfl
  · have hk : payloadKey pay = ks := by decide +kernel
    have hu : upcase3 zbc = zbc := by decide +kernel
    rw [hk, hu, test_csum3]
    decide +kernel
theorem test_witness_DecodeCompletes_ok :
    let pay := payload ks (csum3 (hashInput ks zbc))
    (decoding srcid).req.idLen = .value 66 ∧ (decoding srcid).req.idIn = .value srcid ∧
      parse 66 srcid = .ok ⟨zbc, segmentsOf (payloadSlice srcid), payloadSlice srcid⟩ ∧
      b32dec (payloadSlice srcid) = .ok pay ∧
      payloadChecksum pay = csum3 (hashInput (payloadKey pay) (upcase3 zbc)) := by
  have h : upcase3 zbc = zbc := by decide +kernel
  refine ⟨(decoding_holds _).1, (decoding_holds _).2, test_parse_source_vector, test_b32dec_source_vector, ?_⟩
  rw [h, payloadKey_payload, payloadChecksum_payload]
/-- A request that holds a value, and one that holds none: ENCODE and DECODE go on from both. -/
theorem test_witness_CommandsCompleteOnEveryRequest :
    (flying 0#1 .core).req.pfxLen = .value 3 ∧ State.reset.req.pfxLen = .noValue ∧ State.reset.req.encodeReadable = false ∧
      (∃ t, execEncode State.reset = .next t ∧ t.done = true) ∧ ∃ t, execDecode State.reset = .next t ∧ t.done = true := by
  refine ⟨rfl, rfl, rfl, ?_, ?_⟩
  · rcases execEncode_cases State.reset with ⟨_, _, e⟩ | ⟨_, _, e⟩ <;> exact ⟨_, e, rfl⟩
  · rcases execDecode_cases State.reset with ⟨_, _, e⟩ | ⟨_, _, e⟩ <;> exact ⟨_, e, rfl⟩
theorem test_witness_OutcomeTable :
    exec .encode { flying 0#1 .core with req := (flying 0#1 .core).inp } =
      .next (after (exec .encode { flying 0#1 .core with req := (flying 0#1 .core).inp })) ∧
    exec .decode (decoding badId) = .next (after (exec .decode (decoding badId))) ∧
      (after (exec .decode (decoding badId))).errPos ≠ 0#6 := by
  have h1 : goesOn (exec .encode { flying 0#1 .core with req := (flying 0#1 .core).inp }) = true := by decide +kernel
  have h2 : goesOn (exec .decode (decoding badId)) = true := by decide +kernel
  exact ⟨eq_next_of_goesOn h1, eq_next_of_goesOn h2, by decide +kernel⟩
theorem test_witness_ErrmuxGivesTheSequentialStatus :
    ∀ t, parse 66 srcid = .ok t →
      payloadSlice srcid = t.s56 ∧ zbc = t.p0 ∧ ∀ q, b32dec t.s56 = .ok q → payload ks (csum3 (hashInput ks zbc)) = q := by
  intro t ht
  rw [test_parse_source_vector] at ht
  have e := Except.ok.inj ht
  subst e
  refine ⟨rfl, rfl, fun q hq => ?_⟩
  rw [test_b32dec_source_vector] at hq
  exact Except.ok.inj hq
theorem test_witness_ErrmuxGivesTheSequentialStatus_any :
    ∀ t, parse 66 sixSeg = .ok t → payloadSlice badId = t.s56 ∧ zbc = t.p0 ∧
      ∀ q, b32dec t.s56 = .ok q → payload ks zbc = q := by
  have h : parse 66 sixSeg = .error .invalidDataSegmentCount := by
    show checkTokens (split sixSeg.toList).1 (split sixSeg.toList).2 = _
    rw [checkTokens_eq_error]
    exact .inr (.inl ⟨by decide +kernel, by decide +kernel, rfl⟩)
  intro t ht
  rw [h] at ht
  cases ht
theorem test_witness_ResultsDependOnTheReadRegistersAlone :
    let s := { flying 0#1 .core with req := (flying 0#1 .core).inp }
    let t := { State.reset with req := (flying 0#1 .core).inp }
    t.req.pfxLen = s.req.pfxLen ∧ t.req.pfx = s.req.pfx ∧ t.req.keyLen = s.req.keyLen ∧ t.req.keyIn = s.req.keyIn ∧
      t.req.idLen = s.req.idLen ∧ t.req.idIn = s.req.idIn ∧ s.req.encodeReadable = true ∧ s.req.decodeReadable = true ∧
      exec .encode s = .next (after (exec .encode s)) ∧ exec .decode s = .next (after (exec .decode s)) := by
  have h1 : goesOn (exec .encode { flying 0#1 .core with req := (flying 0#1 .core).inp }) = true := by decide +kernel
  have h2 : goesOn (exec .decode { flying 0#1 .core with req := (flying 0#1 .core).inp }) = true := by decide +kernel
  have h3 : (flying 0#1 .core).inp.encodeReadable = true ∧ (flying 0#1 .core).inp.decodeReadable = true := by decide +kernel
  exact ⟨rfl, rfl, rfl, rfl, rfl, rfl, h3.1, h3.2, eq_next_of_goesOn h1, eq_next_of_goesOn h2⟩
theorem test_witness_SameInputsGiveTheSameResult :
    let s := { idle 0#1 .core with agenda := [Turn.host .start, Turn.core] }
    let t := { s with err := 5#3, resetCount := 7 }
    s.busy = false ∧ t.busy = false ∧ t.inp = s.inp ∧ s.agenda = .host .start :: .core :: [] ∧
      advanceN 2 (.next s) = .next (after (advanceN 2 (.next s))) :=
  ⟨rfl, rfl, rfl, rfl, by
    have h : step { idle 0#1 .core with agenda := [Turn.host .start, Turn.core] } = .next (flyingFrom (idle 0#1 .core)) := rfl
    obtain ⟨t, e⟩ := State.coreTurn_goesOn { flyingFrom (idle 0#1 .core) with agenda := [] }
    have e' : advanceN 2 (.next { idle 0#1 .core with agenda := [Turn.host .start, Turn.core] }) = .next t := by
      simp only [advanceN, advance, h]; exact e
    rw [e']; rfl⟩
theorem test_witness_CharacterRowsWriteTheirByte : (encode .symA).format = .b32sym ∧ (encode .sep).format = .idsep := by decide
theorem test_witness_ErrorRowsDeliverTheirCode :
    (encode .errOK).format = .errcode ∧ (encode .errChecksumMismatch).format = .errcode := by
  decide
theorem test_witness_HostWriteChangesOneRegister :
    (idle 0#1 (.host (.write (.idLen 300)))).isHostTurn (.write (.idLen 300)) ∧
      (flying 0#1 (.host (.write (.pfx (Vector.replicate 3 (some 0x41#8)))))).isHostTurn
        (.write (.pfx (Vector.replicate 3 (some 0x41#8)))) ∧
      (flying 0#1 (.host (.write (.idChar 65 0x41#8)))).isHostTurn (.write (.idChar 65 0x41#8)) :=
  ⟨⟨_, rfl⟩, ⟨_, rfl⟩, ⟨_, rfl⟩⟩
/-- The cases of a read of an output register: a value, any value, no value. -/
theorem test_witness_HostReadDeliversAndDisturbsNothing :
    (idle 0#1 (.host (.read .idOut))).isHostTurn (.read .idOut) ∧ (idle 0#1 (.host (.read .idOut))).idOut = .noValue ∧
      { idle 0#1 (.host (.read .idOut)) with idOut := .value srcid }.isHostTurn (.read .idOut) ∧
      { idle 0#1 (.host (.read .keyOut)) with keyOut := .value ks }.isHostTurn (.read .keyOut) ∧
      { idle 0#1 (.host (.read .keyOut)) with keyOut := .any }.isHostTurn (.read .keyOut) :=
  ⟨⟨_, rfl⟩, rfl, ⟨_, rfl⟩, ⟨_, rfl⟩, ⟨_, rfl⟩⟩
/-- For WhatPersistsAcrossEachStep, a write of one byte of three: the others are not written. -/
theorem test_witness_WhatPersistsAcrossEachStep_write :
    let m : Vector (Option Byte) 3 := #v[some 0x41#8, none, none]
    (idle 0#1 (.host (.write (.pfx m)))).isHostTurn (.write (.pfx m)) ∧ m[2] = none ∧ (65 : Fin 66) ≠ 64 ∧
      step (idle 0#1 (.host (.write (.pfx m)))) = .next (after (step (idle 0#1 (.host (.write (.pfx m)))))) :=
  ⟨⟨_, rfl⟩, rfl, by decide, rfl⟩
/-- For WhatPersistsAcrossEachStep and EveryStepKeepsTheInvariant: steps that go on, one of each kind. -/
theorem test_witness_steps :
    ∀ t ∈ [Turn.core, .host .start, .host .reset, .host (.write (.op 0#1)), .host (.read .idOut), .host (.readResult 0#1)],
      step (idle 1#1 t) = .next (after (step (idle 1#1 t))) := by
  have h : ∀ t ∈ [Turn.core, .host .start, .host .reset, .host (.write (.op 0#1)), .host (.read .idOut), .host (.readResult 0#1)],
      goesOn (step (idle 1#1 t)) = true := by decide +kernel
  exact fun t ht => eq_next_of_goesOn (h t ht)
theorem test_witness_KeccakStepsByLane : (4 : Nat) < 5 ∧ (0 : Nat) < 5 := by decide
theorem test_witness_KeccakTablesAreGenerated : (23 : Nat) < 24 ∧ (63 : Nat) < 64 ∧ (24 : Fin 25).val ≠ 0 := by decide
theorem test_witness_LanesAndBytes : 4 < (24 : Fin 25).val ∧ (24 : Fin 25).val ≠ 16 := by decide
theorem test_witness_Base32InverseLaws :
    (∀ i : Fin 56, val (payloadSlice srcid)[i] ≠ none) ∧ ¬ ∀ i : Fin 56, val (payloadSlice badId)[i] ≠ none := by
  decide +kernel
theorem test_witness_Base32Locality_groups :
    (∀ i : Fin 5, (bytesOf 35 [0, 0, 0, 0, 0, 1])[5 * (0 : Fin 7).val + i.val] = (bytesOf 35 [])[5 * (0 : Fin 7).val + i.val]) ∧
    ∀ i : Fin 8, (payloadSlice badId)[8 * (6 : Fin 7).val + i.val] = (payloadSlice srcid)[8 * (6 : Fin 7).val + i.val] := by
  decide +kernel
theorem test_witness_Base32Locality_one_byte :
    (∀ i : Fin 35, i ≠ 34 → (bytesOf 35 (List.replicate 34 0 ++ [1]))[i] = (bytesOf 35 [])[i]) ∧
    (b32enc (bytesOf 35 (List.replicate 34 0 ++ [1])))[(55 : Fin 56)] ≠ (b32enc (bytesOf 35 []))[(55 : Fin 56)] := by
  decide +kernel
theorem test_witness_Base32Locality_one_character :
    (∀ i : Fin 56, i ≠ 1 → ((payloadSlice srcid).set 1 0x41#8)[i] = (payloadSlice srcid)[i]) ∧
    (charsToBytes ((payloadSlice srcid).set 1 0x41#8))[(1 : Fin 35)] ≠ (charsToBytes (payloadSlice srcid))[(1 : Fin 35)] := by
  decide +kernel
theorem test_witness_Base32Locality_checksum :
    (b32enc (payload ks zbc))[(51 : Fin 56)] ≠ (b32enc (payload ks (bytesOf 3 [0xFF])))[(51 : Fin 56)] := by
  decide +kernel
/-- For SplitIsTheOnlySplit and ParseByPosition: both sides of the equivalences occur. -/
theorem test_witness_ParseByPosition :
    (∀ i : Fin 66, srcid[i] = 0x5F#8 ↔ i ∈ sepPositions) ∧
      ¬ (longPfx[3] = 0x5F#8 ∧ longPfx[0] ≠ 0x5F#8 ∧ longPfx[1] ≠ 0x5F#8 ∧ longPfx[2] ≠ 0x5F#8) ∧
      (sixSeg[3] = 0x5F#8 ∧ (sixSeg.toList.countP fun c => c == 0x5F#8) ≠ 7) ∧
      (longSeg.toList.countP fun c => c == 0x5F#8) = 7 ∧ ¬ ∀ i : Fin 66, longSeg[i] = 0x5F#8 ↔ i ∈ sepPositions := by
  decide +kernel
/-- For AssembleAndParseAreInverse, RoundTripAndConverse, EveryChecksumChangeIsDetected and MachineRoundTrip. -/
theorem test_witness_no_separator : noSeparator zbc ∧ noSeparator (payloadSlice srcid) := by
  have h : ∀ i : Fin 56, (payloadSlice srcid)[i] ≠ Config.separator := by decide +kernel
  exact ⟨noSeparator_zbc, h⟩
theorem test_witness_EveryChecksumChangeIsDetected :
    csum3 (hashInput ks zbc) = csum3 (hashInput ks (upcase3 zbc)) ∧ zbc ≠ csum3 (hashInput ks (upcase3 zbc)) := by
  have h : upcase3 zbc = zbc := by decide +kernel
  rw [h, test_csum3]
  exact ⟨rfl, by decide +kernel⟩
theorem test_witness_CaseSymmetry_prefix :
    decodeCmd 66 srcid = .ok ks ∧ (∀ i : Fin 66, 3 ≤ i.val → smallId[i] = srcid[i]) ∧
      ∀ i : Fin 66, i.val < 3 → upcaseByte smallId[i] = upcaseByte srcid[i] :=
  ⟨test_decode_source_vector, by decide +kernel, by decide +kernel⟩
theorem test_witness_CaseSymmetry_segment :
    decodeCmd 66 srcid = .ok ks ∧
      (∀ i : Fin 66, lowerId[i] = srcid[i] ∨
        (4 ≤ i.val ∧ 0x41 ≤ srcid[i].toNat ∧ srcid[i].toNat ≤ 0x5A ∧ lowerId[i] = srcid[i] + 0x20#8)) ∧
      (payloadSlice lowerId)[(11 : Fin 56)] ≠ (payloadSlice srcid)[(11 : Fin 56)] ∧
      ∀ j : Fin 56, j < 11 → (payloadSlice lowerId)[j] = (payloadSlice srcid)[j] :=
  ⟨test_decode_source_vector, by decide +kernel, by decide +kernel, by decide +kernel⟩
/-- The invariant holds with an operation in flight whose inputs have been changed since. -/
theorem test_witness_invariant_in_flight (o : BitVec 1) (a : List Turn) : { flying o .core with agenda := a }.Inv := by
  have h := two_pow_lenw
  have h3 : ∀ n ≤ 66, lenFits (.value n) := fun n hn => (by omega : n < 2 ^ Config.lenw)
  have hr : (inputs o 3 32 66 zbc ks srcid).readable = true := by
    have all : ∀ o : BitVec 1, (inputs o 3 32 66 zbc ks srcid).readable = true := by decide +kernel
    exact all o
  refine ⟨by simp [flying, idle, State.reset], by simp [flying, idle, State.reset], by simp [flying, idle, State.reset], fun _ => hr, ⟨h3 2 (by omega), h3 0 (by omega), h3 0 (by omega)⟩,
    ⟨h3 3 (by omega), h3 32 (by omega), h3 66 (by omega)⟩, ?_, ?_⟩ <;> intro hb <;> cases hb
/-- For AnOperationInFlightCompletes: the HOST writes and reads in between. -/
theorem test_witness_AnOperationInFlightCompletes :
    let s := { flying 0#1 .core with agenda := [Turn.host (.write (.op 1#1)), Turn.host .start, Turn.host (.read .done)] }
    s.busy = true ∧ ∀ a ∈ s.agenda, isResetTurn a = false :=
  ⟨rfl, by decide⟩
/-- 60_exceptions R229: a busy core goes on even with a request that holds nothing, which no run reaches. -/
theorem test_witness_OnlyAnUnwrittenStartIsRefused_goes_on :
    (∃ t, step { State.reset with busy := true, agenda := [.core] } = .next t) ∧
      step (flying 0#1 (.host .start)) = .next (flying 0#1 (.host .start)).popTurn :=
  ⟨State.coreTurn_goesOn { State.reset with busy := true }, rfl⟩
theorem test_witness_EncodeLineDeliversItsResult :
    let s := { flying 1#1 .core with agenda := lineTurns (.encode [0x5A#8] []) ++ [] }
    s.agenda = lineTurns (.encode [0x5A#8] []) ++ [] ∧ [0x5A#8].length ≠ 3 :=
  ⟨rfl, by decide⟩
theorem test_witness_EncodeLineDeliversItsResult_ok :
    let s := { flying 1#1 .core with agenda := lineTurns (.encode zbc.toList ks.toList) ++ [] }
    s.agenda = lineTurns (.encode zbc.toList ks.toList) ++ [] ∧ zbc.toList.length = 3 ∧ ks.toList.length = 32 :=
  ⟨rfl, by simp, by simp⟩
theorem test_witness_EncodeLineDeliversItsResult_key :
    let s := { flying 1#1 .core with agenda := lineTurns (.encode zbc.toList []) ++ [] }
    s.agenda = lineTurns (.encode zbc.toList []) ++ [] ∧ zbc.toList.length = 3 ∧ ([] : List Byte).length ≠ 32 :=
  ⟨rfl, by simp, by decide⟩
theorem test_witness_DecodeLineDeliversItsResult :
    let s := { flying 0#1 .core with agenda := lineTurns (.decode []) ++ [Turn.host .reset] }
    s.agenda = lineTurns (.decode []) ++ [Turn.host .reset] ∧ ([] : List Byte).length ≠ 66 :=
  ⟨rfl, by decide⟩
theorem test_witness_DecodeLineDeliversItsResult_ok :
    let s := { flying 0#1 .core with agenda := lineTurns (.decode srcid.toList) ++ [] }
    s.agenda = lineTurns (.decode srcid.toList) ++ [] ∧ srcid.toList.length = 66 :=
  ⟨rfl, by simp⟩
theorem test_witness_MachineRoundTrip :
    let s := { flying 0#1 .core with
      agenda := lineTurns (.encode zbc.toList ks.toList) ++ (lineTurns (.decode (encodeKey zbc ks).toList) ++ []) }
    noSeparator zbc ∧
      s.agenda = lineTurns (.encode zbc.toList ks.toList) ++ (lineTurns (.decode (encodeKey zbc ks).toList) ++ []) :=
  ⟨noSeparator_zbc, rfl⟩

end Sys2Proof.Tests
end

/-! PROOFS. The state: what RESET, START, the other actions of the HOST and COMPLETE do to it, and what all of them keep
(spec/10_state.md). -/

namespace Sys2Proof.Machine

open Sys2Proof

/-! ### The length fields -/

/-- The two branches of `saturate` are one formula (10_state R22). -/
theorem saturate_eq_min (n : Nat) : saturate n = min n (2 ^ Config.lenw - 1) := by
  have h := two_pow_lenw
  unfold saturate
  split
  · omega
  · rfl

/-- A length below 127 is told apart from every other one after saturation (92_eei_decisions D5). -/
theorem saturate_eq_iff {k : Nat} (hk : k < 127) (n : Nat) : saturate n = k ↔ n = k := by
  have h := two_pow_lenw
  rw [saturate_eq_min]
  omega

/-! ### RESET -/

theorem State.asAfterReset_reset : State.reset.AsAfterReset := by
  constructor <;> rfl

theorem State.asAfterReset_hostReset (s : State) : s.hostReset.AsAfterReset := by
  constructor <;> rfl

theorem State.inv_reset : State.reset.Inv :=
  State.Inv.of_fresh rfl rfl rfl rfl rfl rfl Inputs.lensFit_empty Inputs.lensFit_empty

theorem State.inv_hostReset (s : State) : s.hostReset.Inv :=
  State.Inv.congr State.inv_reset Inputs.lensFit_empty rfl rfl rfl rfl rfl rfl rfl

/-! ### The actions of the HOST -/

/-- Everything an action of the HOST can do (10_state R32): RESET, a START of an idle core, a write of the input registers, or
something that leaves the core as it is (a read, or a START while `BUSY` = 1). -/
theorem State.hostTurn_cases (s : State) (a : HostAction) :
    (a = .reset ∧ s.hostTurn a = .next s.hostReset) ∨
    (a = .start ∧ s.busy = false ∧ s.hostTurn a = s.start) ∨
    (∃ w k, s.hostTurn a = .next { s with inp := s.inp.hostWrite s.freeSource s.resetCount w, idSel := k }) ∨
    (∃ l n, s.hostTurn a = .next { s with hostLog := l, freeCount := n }) := by
  cases a with
  | reset => exact .inl ⟨rfl, rfl⟩
  | start =>
    rcases s.start_cases with ⟨_, e⟩ | ⟨hb, _, _⟩ | ⟨hb, _, _⟩
    · exact .inr (.inr (.inr ⟨s.hostLog, s.freeCount, e⟩))
    · exact .inr (.inl ⟨rfl, hb, rfl⟩)
    · exact .inr (.inl ⟨rfl, hb, rfl⟩)
  | write w =>
    obtain ⟨k, e⟩ := s.hostTurn_write w
    exact .inr (.inr (.inl ⟨w, k, e⟩))
  | read p =>
    obtain ⟨v, n, e⟩ := s.hostRead_core p
    exact .inr (.inr (.inr ⟨_, n, (s.hostTurn_read p).trans (congrArg _ e)⟩))
  | readResult op =>
    obtain ⟨l, n, e⟩ := s.hostReadResult_core op
    exact .inr (.inr (.inr ⟨l, n, congrArg Host.Outcome.next e⟩))

/-- START keeps the invariant: it is ignored, or it samples a readable request (45_operations R192). -/
theorem State.Inv.start {s t : State} (h : s.Inv) (hs : s.start = .next t) : t.Inv := by
  rcases s.start_cases with ⟨_, e⟩ | ⟨_, hr, e⟩ | ⟨_, _, e⟩ <;> rw [e] at hs <;> cases hs
  · exact h
  · exact {
      notBoth := by simp
      posRange := h.posRange
      posOnly := h.posOnly
      inFlight := fun _ => hr
      lens := h.lens
      reqLens := h.lens
      fresh := by simp
      outcome := by simp }

/-- Every action of the HOST keeps the invariant. -/
theorem State.Inv.hostTurn {s t : State} {a : HostAction} (h : s.Inv) (hs : s.hostTurn a = .next t) : t.Inv := by
  rcases s.hostTurn_cases a with ⟨_, e⟩ | ⟨_, _, e⟩ | ⟨w, k, e⟩ | ⟨l, n, e⟩ <;> rw [e] at hs
  · cases hs
    exact s.inv_hostReset
  · exact h.start hs
  · cases hs
    exact h.congr (Inputs.lensFit_hostWrite h.lens _ _ w) rfl rfl rfl rfl rfl rfl rfl
  · cases hs
    exact h.congr h.lens rfl rfl rfl rfl rfl rfl rfl

/-! ### COMPLETE -/

/-- What a command's result leaves in its output register (45_operations R193, 70_reset_and_hazards R244). -/
def outputOf {α : Type} : Except ErrKind α → Content α
  | .ok v => .value v
  | .error _ => .any

/-- The status and the output register after ENCODE are its result's, and nothing else goes into them (45_operations R193). -/
theorem execEncode_result (s : State) :
    ∃ t, execEncode s = .next t ∧
      t.err = (statusOf (s.req.runEncode s.freeSource s.resetCount)).1 ∧
      t.errPos = (statusOf (s.req.runEncode s.freeSource s.resetCount)).2 ∧
      t.idOut = outputOf (s.req.runEncode s.freeSource s.resetCount) := by
  rcases execEncode_cases s with ⟨id, hr, e⟩ | ⟨k, hr, e⟩ <;> rw [hr] <;> exact ⟨_, e, rfl, rfl, rfl⟩

/-- The status and the output register after DECODE are its result's, and nothing else goes into them (45_operations R193). -/
theorem execDecode_result (s : State) :
    ∃ t, execDecode s = .next t ∧
      t.err = (statusOf (s.req.runDecode s.freeSource s.resetCount)).1 ∧
      t.errPos = (statusOf (s.req.runDecode s.freeSource s.resetCount)).2 ∧
      t.keyOut = outputOf (s.req.runDecode s.freeSource s.resetCount) := by
  rcases execDecode_cases s with ⟨key, hr, e⟩ | ⟨k, hr, e⟩ <;> rw [hr] <;> exact ⟨_, e, rfl, rfl, rfl⟩

/-- ENCODE looks at four registers of its request (10_state R29). -/
theorem Inputs.runEncode_congr {r q : Inputs} (hpl : q.pfxLen = r.pfxLen) (hp : q.pfx = r.pfx) (hkl : q.keyLen = r.keyLen)
    (hk : q.keyIn = r.keyIn) (j e : Nat) : q.runEncode j e = r.runEncode j e := by
  simp only [Inputs.runEncode, Inputs.pfxBytes, Inputs.keyBytes, hpl, hp, hkl, hk]

/-- DECODE looks at two registers of its request (10_state R29). -/
theorem Inputs.runDecode_congr {r q : Inputs} (hl : q.idLen = r.idLen) (hi : q.idIn = r.idIn) (j e : Nat) :
    q.runDecode j e = r.runDecode j e := by
  simp only [Inputs.runDecode, Inputs.idBytes, hl, hi]

/-- With the invariant, the command that an operation in flight runs is the value that its `REQ.OP` holds. -/
theorem State.Inv.req_op {s : State} (h : s.Inv) (hb : s.busy = true) : s.req.op = .value s.command := by
  rcases Inputs.readable_cases (h.inFlight hb) with ⟨ho, _⟩ | ⟨ho, _⟩ <;> rw [State.command_of_op ho, ho]

/-- A COMPLETE with a status and an output register that the command may have gives the invariant. -/
theorem State.inv_complete {s : State} {o : BitVec 1} {c : BitVec 3 × BitVec 6} (hi : s.inp.lensFit) (hq : s.req.lensFit)
    (ho : s.req.op = .value o) (hlt : c.2.toNat < 56) (honly : c.2 ≠ 0#6 → c.1 = 6#3) (hend : mayEndIn o c.1)
    (hout : if o = 0#1 then outputAgrees c.1 s.idOut else outputAgrees c.1 s.keyOut) : (s.complete c).Inv where
  notBoth := by simp
  posRange := hlt
  posOnly := honly
  inFlight := by simp
  lens := hi
  reqLens := hq
  fresh := by simp
  outcome := fun _ => ⟨o, ho, hend, hout⟩

/-- A successful ENCODE keeps the invariant. -/
theorem State.Inv.returnIdentifier {s : State} (h : s.Inv) (ho : s.req.op = .value 0#1) (id : Bytes 66) :
    (s.returnIdentifier id).Inv :=
  State.inv_complete (s := { s with idOut := .value id }) h.lens h.reqLens ho (by decide) (by decide) (by simp [mayEndIn])
    (by simp [outputAgrees])

/-- A successful DECODE keeps the invariant. -/
theorem State.Inv.returnKey {s : State} (h : s.Inv) (ho : s.req.op = .value 1#1) (key : Bytes 32) : (s.returnKey key).Inv :=
  State.inv_complete (s := { s with keyOut := .value key }) h.lens h.reqLens ho (by decide) (by decide) (by simp [mayEndIn])
    (by simp [outputAgrees])

/-- No error has the code of success (30_encoding R77). -/
theorem errCode_ne_zero (k : ErrKind) : errCode k ≠ 0#3 := by
  cases k <;> simp [errCode]

/-- Reporting an error that the command may end in keeps the invariant (60_exceptions R220, R231). -/
theorem State.Inv.raiseErr {s : State} {o : BitVec 1} {k : ErrKind} (h : s.Inv) (ho : s.req.op = .value o)
    (hend : mayEndIn o (errCode k)) : (s.raiseErr o k).Inv := by
  have hspoil : outputAgrees (errCode k) (Content.any : Content (Bytes 66)) ∧
      outputAgrees (errCode k) (Content.any : Content (Bytes 32)) := by
    simp [outputAgrees, errCode_ne_zero]
  unfold State.raiseErr
  rcases op_cases o with rfl | rfl
  · exact State.inv_complete (s := s.spoilOutput 0#1) h.lens h.reqLens ho (errDatum_lt k) (errDatum_only k) hend hspoil.1
  · exact State.inv_complete (s := s.spoilOutput 1#1) h.lens h.reqLens ho (errDatum_lt k) (errDatum_only k) hend hspoil.2

/-- A COMPLETE of ENCODE keeps the invariant. -/
theorem State.Inv.execEncode {s t : State} (h : s.Inv) (ho : s.req.op = .value 0#1) (hs : execEncode s = .next t) : t.Inv := by
  rcases execEncode_cases s with ⟨id, _, e⟩ | ⟨k, hr, e⟩ <;> rw [e] at hs <;> cases hs
  · exact h.returnIdentifier ho id
  · exact h.raiseErr ho (.inr (Inputs.runEncode_error hr))

/-- A COMPLETE of DECODE keeps the invariant. -/
theorem State.Inv.execDecode {s t : State} (h : s.Inv) (ho : s.req.op = .value 1#1) (hs : execDecode s = .next t) : t.Inv := by
  rcases execDecode_cases s with ⟨key, _, e⟩ | ⟨k, hr, e⟩ <;> rw [e] at hs <;> cases hs
  · exact h.returnKey ho key
  · exact h.raiseErr ho (Inputs.runDecode_error hr).1

/-- The core's turn keeps the invariant. -/
theorem State.Inv.coreTurn {s t : State} (h : s.Inv) (hs : s.coreTurn = .next t) : t.Inv := by
  rcases s.coreTurn_cases with ⟨_, e⟩ | ⟨hb, hc, e⟩ | ⟨hb, hc, e⟩ <;> rw [e] at hs
  · cases hs
    exact h
  · exact h.execEncode (hc ▸ h.req_op hb) hs
  · exact h.execDecode (hc ▸ h.req_op hb) hs

/-! ### The statements -/

/-- Settles O39: a step is the core's turn or an action of the HOST, and each keeps the invariant. -/
theorem everyStepKeepsTheInvariant : Obligations.EveryStepKeepsTheInvariant := by
  intro s t h hs
  rcases s.isTurn_cases with hc | ⟨a, ha⟩
  · rw [step_of_isCoreTurn hc] at hs
    exact h.popTurn.coreTurn hs
  · rw [step_of_isHostTurn ha] at hs
    exact h.popTurn.hostTurn hs

/-- Settles O16: the results are functions of the command's result, which the read registers alone determine once they hold a value. -/
theorem resultsDependOnTheReadRegistersAlone : Obligations.ResultsDependOnTheReadRegistersAlone := by
  constructor
  · intro s t s' hpl hp hkl hk hread hs
    have hrun : t.req.runEncode t.freeSource t.resetCount = s.req.runEncode s.freeSource s.resetCount :=
      (Inputs.runEncode_congr hpl hp hkl hk _ _).trans (Inputs.runEncode_readable hread _ _ _ _)
    obtain ⟨u, hu, herr, hpos, hout⟩ := execEncode_result s
    obtain ⟨t', ht', herr', hpos', hout'⟩ := execEncode_result t
    cases hu.symm.trans hs
    rw [hrun] at herr' hpos' hout'
    exact ⟨t', ht', herr'.trans herr.symm, hpos'.trans hpos.symm, hout'.trans hout.symm⟩
  · intro s t s' hl hi hread hs
    have hrun : t.req.runDecode t.freeSource t.resetCount = s.req.runDecode s.freeSource s.resetCount :=
      (Inputs.runDecode_congr hl hi _ _).trans (Inputs.runDecode_readable hread _ _ _ _)
    obtain ⟨u, hu, herr, hpos, hout⟩ := execDecode_result s
    obtain ⟨t', ht', herr', hpos', hout'⟩ := execDecode_result t
    cases hu.symm.trans hs
    rw [hrun] at herr' hpos' hout'
    exact ⟨t', ht', herr'.trans herr.symm, hpos'.trans hpos.symm, hout'.trans hout.symm⟩

/-- Settles O42: a busy core ignores START, and writes and reads touch the input registers and the model's own fields alone. -/
theorem theHostCannotDisturbAnOperation : Obligations.TheHostCannotDisturbAnOperation := by
  intro s a hb ha hne
  rw [step_of_isHostTurn ha]
  rcases s.popTurn.hostTurn_cases a with ⟨hr, _⟩ | ⟨_, hidle, _⟩ | ⟨w, k, e⟩ | ⟨l, n, e⟩
  · exact absurd hr hne
  · exact absurd (hb.symm.trans hidle) (by decide)
  · exact ⟨_, e, rfl, hb, rfl, rfl, rfl, rfl, rfl⟩
  · exact ⟨_, e, rfl, hb, rfl, rfl, rfl, rfl, rfl⟩

/-- Settles O7: both are the table, field by field. -/
theorem resetLeavesTheTable : Obligations.ResetLeavesTheTable :=
  ⟨State.asAfterReset_reset, fun s h => ⟨s.popTurn.hostReset, step_of_isHostTurn h, State.asAfterReset_hostReset _⟩⟩

/-- Settles O20: 3, 32 and 66 are below 127, which every length field holds as it is. -/
theorem saturationKeepsTheLengthChecks : Obligations.SaturationKeepsTheLengthChecks := by
  refine ⟨Nat.le_add_right 7 _, fun n => ⟨saturate_eq_min n, ?_, ?_, ?_⟩⟩
  · exact saturate_eq_iff (by decide) n
  · exact saturate_eq_iff (by decide) n
  · exact saturate_eq_iff (by decide) n

/-- Settles O38: nothing has completed and nothing is in flight after reset. -/
theorem invariantHoldsAfterReset : Obligations.InvariantHoldsAfterReset := State.inv_reset

end Sys2Proof.Machine

/-! PROOFS. The registers a command reads, and the result they give (spec/20_memory.md). -/

namespace Sys2Proof.Machine

open Sys2Proof

/-- A request is readable exactly when its command's own registers are (10_state R30). -/
theorem Inputs.readable_iff (r : Inputs) :
    r.readable = true ↔
      (r.op = .value 0#1 ∧ r.encodeReadable = true) ∨ (r.op = .value 1#1 ∧ r.decodeReadable = true) := by
  refine ⟨Inputs.readable_cases, ?_⟩
  rintro (⟨ho, hr⟩ | ⟨ho, hr⟩)
  · simpa [Inputs.readable, ho] using hr
  · simpa [Inputs.readable, ho] using hr

/-- Settles O10: the two commands' read sets, joined by the case split on `OP`. -/
theorem readSetsAreShortCircuit : Obligations.ReadSetsAreShortCircuit := by
  intro r
  rw [r.readable_iff, r.encodeReadable_iff, r.decodeReadable_iff]

/-- What the core's turn leaves of a readable request in the status and in the command's output register is the same from every busy
state that holds this request (20_memory R57). -/
theorem State.coreTurn_same_result {s t s' : State} (hbs : s.busy = true) (hbt : t.busy = true) (hreq : t.req = s.req)
    (hr : s.req.readable = true) (hs : s.coreTurn = .next s') :
    ∃ t', t.coreTurn = .next t' ∧ t'.err = s'.err ∧ t'.errPos = s'.errPos ∧
      ((s.req.op = .value 0#1 ∧ t'.idOut = s'.idOut) ∨ (s.req.op = .value 1#1 ∧ t'.keyOut = s'.keyOut)) := by
  rcases Inputs.readable_cases hr with ⟨ho, hread⟩ | ⟨ho, hread⟩ <;>
    rw [State.coreTurn_of_op hbs ho (decode_opItem _)] at hs <;>
    rw [State.coreTurn_of_op hbt (hreq ▸ ho) (decode_opItem _)]
  · obtain ⟨t', ht, herr, hpos, hout⟩ := resultsDependOnTheReadRegistersAlone.1 s t s' (congrArg _ hreq) (congrArg _ hreq)
      (congrArg _ hreq) (congrArg _ hreq) hread hs
    exact ⟨t', ht, herr, hpos, .inl ⟨ho, hout⟩⟩
  · obtain ⟨t', ht, herr, hpos, hout⟩ := resultsDependOnTheReadRegistersAlone.2 s t s' (congrArg _ hreq) (congrArg _ hreq)
      hread hs
    exact ⟨t', ht, herr, hpos, .inr ⟨ho, hout⟩⟩

/-- A START on an idle core samples a readable request or is refused (45_operations R192). -/
theorem step_start_cases {s : State} (hb : s.busy = false) (ha : s.isHostTurn .start) :
    (s.inp.readable = true ∧ ∃ u, step s = .next u ∧ u.req = s.inp ∧ u.busy = true ∧ u.agenda = s.agenda.tail) ∨
    (s.inp.readable = false ∧ step s = .refused .unwrittenInput) := by
  have hstep : step s = s.popTurn.start := step_of_isHostTurn ha
  rcases s.popTurn.start_cases with ⟨hbusy, _⟩ | ⟨_, hr, e⟩ | ⟨_, hr, e⟩
  · exact absurd (hb.symm.trans hbusy) (by decide)
  · exact .inl ⟨hr, _, hstep.trans e, rfl, rfl, rfl⟩
  · exact .inr ⟨hr, hstep.trans e⟩

/-- A START on an idle core and then the core's turn: START is refused, or the turn is a busy core's, with the inputs as its request. -/
theorem advanceN_start_core_cases {s : State} (hb : s.busy = false) (ha : ∃ rest, s.agenda = .host .start :: .core :: rest) :
    (s.inp.readable = true ∧ ∃ u : State, u.req = s.inp ∧ u.busy = true ∧ advanceN 2 (.next s) = u.coreTurn) ∨
    (s.inp.readable = false ∧ advanceN 2 (.next s) = .refused .unwrittenInput) := by
  obtain ⟨rest, ha⟩ := ha
  rcases step_start_cases hb ⟨_, ha⟩ with ⟨hr, u, hu, hreq, hbusy, hag⟩ | ⟨hr, e⟩
  · have hcore : u.isCoreTurn := .inr ⟨rest, hag.trans (congrArg List.tail ha)⟩
    have hrun : advanceN 2 (.next s) = u.popTurn.coreTurn := calc
      advanceN 2 (.next s) = advance (step s) := rfl
      _ = step u := congrArg advance hu
      _ = u.popTurn.coreTurn := step_of_isCoreTurn hcore
    exact .inl ⟨hr, u.popTurn, hreq, hbusy, hrun⟩
  · exact .inr ⟨hr, congrArg advance e⟩

/-- Settles O47: neither START is refused, and both core's turns complete the same readable request. -/
theorem sameInputsGiveTheSameResult : Obligations.SameInputsGiveTheSameResult := by
  intro s t s' hbs hbt hin has hat hrun
  rcases advanceN_start_core_cases hbs has with ⟨hr, u, hu, hbu, eu⟩ | ⟨_, eu⟩
  · rcases advanceN_start_core_cases hbt hat with ⟨_, v, hv, hbv, ev⟩ | ⟨hr', _⟩
    · rw [ev, ← hu]
      exact State.coreTurn_same_result hbu hbv (hv.trans (hin.trans hu.symm)) (hu ▸ hr) (eu.symm.trans hrun)
    · exact absurd (hr.symm.trans (hin ▸ hr')) (by decide)
  · cases eu.symm.trans hrun

end Sys2Proof.Machine

/-! PROOFS. The encodings: the decoder against the encoder, the tables of symbols and error codes, what the rows of the fetched items do,
and the bit groups of a segment (spec/30_encoding.md). -/

namespace Sys2Proof.Machine

open Sys2Proof

/-! ### Decode and encode -/

/-- The encoding of every row fits its format's width (30_encoding R84). -/
theorem encode_wf (i : Instr) : (encode i).wf = true := by
  cases i <;> rfl

/-- The encoding of every row is read back as the row (30_encoding R84). -/
theorem decode_encode (i : Instr) : decode (encode i) = .ok i := by
  cases i <;> rfl

/-- An item that decodes to a row is that row's encoding (30_encoding R84). -/
theorem encode_of_decode {f : Item} {i : Instr} (h : decode f = .ok i) : encode i = f := by
  obtain ⟨hw, r, hr, hm, rfl⟩ := decode_ok_iff h
  exact opcodeTable_sound r hr f hw hm

theorem decode_eq_ok_iff {f : Item} {i : Instr} : decode f = .ok i ↔ encode i = f := by
  refine ⟨encode_of_decode, ?_⟩
  rintro rfl
  exact decode_encode i

/-- An item that fits its format and is no row's encoding is rejected as no row (30_encoding R84). -/
theorem decode_eq_noSuchRow {f : Item} (hw : f.wf = true) (hne : ∀ i, encode i ≠ f) : decode f = .error .noSuchRow := by
  cases hd : decode f with
  | ok i => exact absurd (encode_of_decode hd) (hne i)
  | error e =>
    unfold decode at hd
    rw [if_pos hw] at hd
    split at hd
    · cases hd
    · exact hd.symm

/-- An item that decodes fits its format. -/
theorem wf_of_decode {f : Item} {i : Instr} (h : decode f = .ok i) : f.wf = true :=
  encode_of_decode h ▸ encode_wf i

/-! ### The base32 symbols -/

/-- The table's formula for `sym` (30_encoding R74). -/
theorem sym_toNat (v : BitVec 5) : (sym v).toNat = if v.toNat ≤ 25 then 0x41 + v.toNat else 0x32 + (v.toNat - 26) := by
  revert v; decide

/-- The table's formula for `val` (30_encoding R74). -/
theorem val_eq_ite_toNat (c : Byte) :
    val c = if 0x41 ≤ c.toNat ∧ c.toNat ≤ 0x5A then some (BitVec.ofNat 5 (c.toNat - 0x41))
      else if 0x32 ≤ c.toNat ∧ c.toNat ≤ 0x37 then some (BitVec.ofNat 5 (c.toNat - 0x32 + 26))
      else none := by
  have hletter (h : 0x41 ≤ c.toNat) : (c - 0x41#8).setWidth 5 = BitVec.ofNat 5 (c.toNat - 0x41) := by bv_omega
  have hdigit (h : 0x32 ≤ c.toNat) (h' : c.toNat ≤ 0x37) :
      (c - 0x32#8 + 26#8).setWidth 5 = BitVec.ofNat 5 (c.toNat - 0x32 + 26) := by bv_omega
  simp only [val, BitVec.le_def, BitVec.toNat_ofNat, Nat.reducePow, Nat.reduceMod]
  split_ifs with hl hd
  · rw [hletter hl.1]
  · rw [hdigit hd.1 hd.2]
  · rfl

/-- The row of a symbol is the character of its value (30_encoding R74). -/
theorem encode_of_symValue {i : Instr} {v : BitVec 5} (h : symValue i = some v) : encode i = ⟨.b32sym, sym v⟩ := by
  cases i <;> cases h <;> rfl

/-- The rows with a value are those of format B32SYM (30_encoding R74). -/
theorem symValue_isSome_iff (i : Instr) : (symValue i).isSome = true ↔ (encode i).format = .b32sym := by
  cases i <;> decide

/-- Every value has a symbol (30_encoding R74). -/
theorem exists_symbol_of_value (v : BitVec 5) : ∃ i, symValue i = some v := by
  have all : ∀ v : BitVec 5, ∃ r ∈ opcodeTable, symValue r.instr = some v := by decide
  obtain ⟨r, _, hr⟩ := all v
  exact ⟨r.instr, hr⟩

/-- A character outside the alphabet is no row of format B32SYM (30_encoding R74). -/
theorem decode_b32sym_of_val_none {c : Byte} (h : val c = none) : decode ⟨.b32sym, c⟩ = .error .noSuchRow := by
  refine decode_eq_noSuchRow (decide_eq_true c.isLt) fun i hi => ?_
  obtain ⟨v, hv⟩ := Option.isSome_iff_exists.mp ((symValue_isSome_iff i).mpr (congrArg Item.format hi))
  have hc : sym v = c := congrArg Item.bits ((encode_of_symValue hv).symm.trans hi)
  have hval : val c = some v := hc ▸ val_sym v
  cases h.symm.trans hval

/-! ### The error kinds -/

/-- The row of an error kind is the value of `ERR` that its code is (30_encoding R77). -/
theorem decode_errCode (k : ErrKind) : decode (errItem (errCode k)) = .ok (errRow k) := by
  rw [decode_eq_ok_iff]
  cases k <;> rfl

/-- The position, 0 to 55, is not cut off in the 6 bits of `ERR_POS` (10_state R24). -/
theorem errDatum_invalidEncoding_toNat (pos : Fin 56) : (errDatum (.invalidEncoding pos)).toNat = pos.val :=
  Nat.mod_eq_of_lt (by omega)

/-- Only InvalidEncoding carries a datum (60_exceptions R210). -/
theorem exists_invalidEncoding_of_errDatum {k : ErrKind} (h : errDatum k ≠ 0#6) : ∃ pos, k = .invalidEncoding pos := by
  cases k with
  | invalidEncoding pos => exact ⟨pos, rfl⟩
  | _ => exact absurd rfl h

/-! ### The fetched fields and the rows they hold -/

/-- The bits of an item of format CMD are those of the port it is fetched from (30_encoding R76, R84). -/
theorem opItem_setWidth {f : Item} (hf : f.format = .cmd) (hw : f.wf = true) : opItem (f.bits.setWidth 1) = f := by
  obtain ⟨fmt, b⟩ := f
  subst hf
  have hb : b.toNat < 2 := of_decide_eq_true hw
  exact congrArg (Item.mk .cmd) (by bv_omega)

/-- The bits of an item of format ERRCODE are those of the field it is fetched from (30_encoding R77, R84). -/
theorem errItem_setWidth {f : Item} (hf : f.format = .errcode) (hw : f.wf = true) : errItem (f.bits.setWidth 3) = f := by
  obtain ⟨fmt, b⟩ := f
  subst hf
  have hb : b.toNat < 8 := of_decide_eq_true hw
  exact congrArg (Item.mk .errcode) (by bv_omega)

/-- Every row of format ERRCODE runs as the read of its own code. -/
theorem exec_errRow (i : Instr) (s : State) (h : (encode i).format = .errcode) :
    exec i s = .next (s.logRead (.err ((encode i).bits.setWidth 3))) := by
  obtain ⟨j, hj, hexec⟩ := decode_errItem ((encode i).bits.setWidth 3)
  rw [errItem_setWidth h (encode_wf i), decode_encode] at hj
  cases hj
  exact hexec s

/-- The word of a row, as an item, decodes to the row (log 13). -/
theorem decode_tableItem {nbits w : Nat} {i : Instr} (h : decodeTableWord nbits w = some i) : decode (tableItem nbits w) = .ok i := by
  unfold decodeTableWord at h
  cases hd : decode (tableItem nbits w) with
  | error e => rw [hd] at h; cases h
  | ok j => rw [hd] at h; cases h; rfl

/-- The turn that presents a character row runs the row. -/
theorem State.charTurn_of_row {s : State} {i : Instr} {c : Byte} (hf : (encode i).format = .b32sym ∨ (encode i).format = .idsep)
    (hc : (encode i).bits = c) : s.charTurn s.idSel c = exec i s := by
  rw [s.charTurn_eq, exec_charRow i s hf, hc]

/-- An item placed where the machine fetches it is what the next step runs, whatever its format (log 16). -/
theorem step_withItem {s : State} {f : Item} {i : Instr} (h : decode f = .ok i) :
    step (s.withItem f) = exec i { s.withItem f with agenda := s.agenda } := by
  have hi : encode i = f := encode_of_decode h
  obtain ⟨fmt, b⟩ := f
  cases fmt with
  | cmd =>
    have hop : opItem (b.setWidth 1) = ⟨.cmd, b⟩ := opItem_setWidth (f := ⟨.cmd, b⟩) rfl (wf_of_decode h)
    exact State.coreTurn_of_op (s := { s.withItem ⟨.cmd, b⟩ with agenda := s.agenda }) rfl rfl (hop.symm ▸ h)
  | b32sym => exact State.charTurn_of_row (.inl (congrArg Item.format hi)) (congrArg Item.bits hi)
  | idsep => exact State.charTurn_of_row (.inr (congrArg Item.format hi)) (congrArg Item.bits hi)
  | errcode =>
    have hrow := exec_errRow i { s.withItem ⟨.errcode, b⟩ with agenda := s.agenda } (congrArg Item.format hi)
    rw [hi] at hrow
    exact (State.errTurn_eq _).trans hrow.symm

/-! ### The bit groups of a segment -/

/-- The 40 bits of segment `j` in a 280-bit string, the first one most significant (30_encoding R75). -/
def segmentWord (bit : Fin 280 → Bool) (j : Fin 7) : BitVec 40 := BitVec.ofFnBE fun t => bit ⟨40 * j.val + t.val, by omega⟩

/-- A word whose bits are those of a segment from bit `k` on is a slice of the segment. -/
theorem eq_slice_of_segmentWord {bit : Fin 280 → Bool} {j : Fin 7} {n k : Nat} {x : BitVec n} (hk : k + n ≤ 40)
    (h : ∀ (t : Nat) (ht : t < n), x.getMsbD t = bit ⟨40 * j.val + (k + t), by omega⟩) :
    x = (segmentWord bit j).extractLsb' (40 - (k + n)) n := by
  refine BitVec.eq_of_getMsbD_eq fun t ht => ?_
  have hle : 40 - (k + n) + n - t ≤ 40 := by omega
  have hpos : 40 - (40 - (k + n) + n - t) = k + t := by omega
  have hlt : k + t < 40 := by omega
  simp [h t ht, segmentWord, BitVec.getMsbD_ofFnBE, ht, hle, hpos, hlt]

/-- Byte `m` of a segment of the payload is its bits from `8m` on (41_base32 R120). -/
theorem pay_eq_slice (pay : Bytes 35) (j : Fin 7) (m : Fin 5) :
    pay[5 * j.val + m.val] = (segmentWord (payBit pay) j).extractLsb' (40 - (8 * m.val + 8)) 8 := by
  refine eq_slice_of_segmentWord (by omega) fun t ht => ?_
  have hbyte : (40 * j.val + (8 * m.val + t)) / 8 = 5 * j.val + m.val := by omega
  have hbit : (40 * j.val + (8 * m.val + t)) % 8 = t := by omega
  simp only [payBit, hbyte, hbit]

/-- Group `i` of a segment of the payload is its bits from `5i` on (41_base32 R120). -/
theorem payGroup_eq_slice (pay : Bytes 35) (j : Fin 7) (i : Fin 8) :
    payGroup pay ⟨8 * j.val + i.val, by omega⟩ = (segmentWord (payBit pay) j).extractLsb' (40 - (5 * i.val + 5)) 5 := by
  refine eq_slice_of_segmentWord (by omega) fun t ht => ?_
  rw [payGroup_getMsbD _ _ _ ht]
  exact congrArg (payBit pay) (Fin.ext (by dsimp only; omega))

/-- The value of character `i` of a segment of a text is its bits from `5i` on (41_base32 R121). -/
theorem charValue_eq_slice (s : Bytes 56) (j : Fin 7) (i : Fin 8) :
    charValue s ⟨8 * j.val + i.val, by omega⟩ = (segmentWord (charBit s) j).extractLsb' (40 - (5 * i.val + 5)) 5 := by
  refine eq_slice_of_segmentWord (by omega) fun t ht => ?_
  have hchar : (40 * j.val + (5 * i.val + t)) / 5 = 8 * j.val + i.val := by omega
  have hbit : (40 * j.val + (5 * i.val + t)) % 5 = t := by omega
  simp only [charBit, hchar, hbit]

/-- Byte `m` of a segment of a text is its bits from `8m` on (41_base32 R121). -/
theorem charsToBytes_eq_slice (s : Bytes 56) (j : Fin 7) (m : Fin 5) :
    (charsToBytes s)[5 * j.val + m.val] = (segmentWord (charBit s) j).extractLsb' (40 - (8 * m.val + 8)) 8 := by
  refine eq_slice_of_segmentWord (by omega) fun t ht => ?_
  rw [charsToBytes_getElem_getMsbD _ _ _ _ ht]
  exact congrArg (charBit s) (Fin.ext (by dsimp only; omega))

/-- A slice of a slice is a slice. -/
theorem extractLsb'_extractLsb' {w : Nat} (x : BitVec w) {start n lo len : Nat} (h : lo + len ≤ n) :
    (x.extractLsb' start n).extractLsb' lo len = x.extractLsb' (start + lo) len := by
  refine BitVec.eq_of_getLsbD_eq fun t ht => ?_
  have hlt : lo + t < n := by omega
  simp [ht, hlt, Nat.add_assoc]

/-- A slice is its upper `m` bits and then its lower `n` bits. -/
theorem extractLsb'_add {w : Nat} (x : BitVec w) (start m n : Nat) :
    x.extractLsb' start (m + n) = x.extractLsb' (start + n) m ++ x.extractLsb' start n :=
  (BitVec.extractLsb'_append_extractLsb'_eq_extractLsb' rfl).symm

/-- A slice in three parts. -/
theorem extractLsb'_add₃ {w : Nat} (x : BitVec w) (start l m n : Nat) :
    x.extractLsb' start (l + m + n) = x.extractLsb' (start + n + m) l ++ x.extractLsb' (start + n) m ++ x.extractLsb' start n := by
  rw [extractLsb'_add x start (l + m) n, extractLsb'_add x (start + n) l m]

/-- The slices of 5 bits of a 40-bit word, from its slices of 8 bits (30_encoding R75). -/
theorem groups_from_bytes (x : BitVec 40) {b : Fin 5 → Byte} {c : Fin 8 → BitVec 5}
    (hb : ∀ m, b m = x.extractLsb' (40 - (8 * m.val + 8)) 8) (hc : ∀ i, c i = x.extractLsb' (40 - (5 * i.val + 5)) 5) :
    c 0 = (b 0).extractLsb' 3 5 ∧
    c 1 = (b 0).extractLsb' 0 3 ++ (b 1).extractLsb' 6 2 ∧
    c 2 = (b 1).extractLsb' 1 5 ∧
    c 3 = (b 1).extractLsb' 0 1 ++ (b 2).extractLsb' 4 4 ∧
    c 4 = (b 2).extractLsb' 0 4 ++ (b 3).extractLsb' 7 1 ∧
    c 5 = (b 3).extractLsb' 2 5 ∧
    c 6 = (b 3).extractLsb' 0 2 ++ (b 4).extractLsb' 5 3 ∧
    c 7 = (b 4).extractLsb' 0 5 := by
  simp (disch := decide) only [hb, hc, extractLsb'_extractLsb']
  exact ⟨rfl, extractLsb'_add x 30 3 2, rfl, extractLsb'_add x 20 1 4, extractLsb'_add x 15 4 1, rfl, extractLsb'_add x 5 2 3, rfl⟩

/-- The slices of 8 bits of a 40-bit word, from its slices of 5 bits (30_encoding R75). -/
theorem bytes_from_groups (x : BitVec 40) {b : Fin 5 → Byte} {c : Fin 8 → BitVec 5}
    (hb : ∀ m, b m = x.extractLsb' (40 - (8 * m.val + 8)) 8) (hc : ∀ i, c i = x.extractLsb' (40 - (5 * i.val + 5)) 5) :
    b 0 = c 0 ++ (c 1).extractLsb' 2 3 ∧
    b 1 = (c 1).extractLsb' 0 2 ++ c 2 ++ (c 3).extractLsb' 4 1 ∧
    b 2 = (c 3).extractLsb' 0 4 ++ (c 4).extractLsb' 1 4 ∧
    b 3 = (c 4).extractLsb' 0 1 ++ c 5 ++ (c 6).extractLsb' 3 2 ∧
    b 4 = (c 6).extractLsb' 0 3 ++ c 7 := by
  simp (disch := decide) only [hb, hc, extractLsb'_extractLsb']
  exact ⟨extractLsb'_add x 32 5 3, extractLsb'_add₃ x 24 2 5 1, extractLsb'_add x 16 4 4, extractLsb'_add₃ x 8 1 5 2,
    extractLsb'_add x 0 3 5⟩

/-! ### The statements -/

/-- Settles O1: the encoder inverts the decoder, row by row one way and through the table's masks the other way. -/
theorem decodeAndEncodeAgree : Obligations.DecodeAndEncodeAgree :=
  ⟨fun i => ⟨encode_wf i, decode_encode i⟩, fun _ _ => encode_of_decode⟩

/-- Settles O6: the placed word decodes as its item does. -/
theorem placedWordRunsNext : Obligations.PlacedWordRunsNext :=
  fun _ _ _ _ h => step_withItem (decode_tableItem h)

/-- Settles O30: bytes and groups are slices of the segment's 40 bits, for a payload and for a text. -/
theorem bitGroupsOfASegment : Obligations.BitGroupsOfASegment := by
  constructor
  · intro pay j b c
    exact groups_from_bytes _ (b := b) (c := c) (pay_eq_slice pay j) (payGroup_eq_slice pay j)
  · intro s j c b
    exact bytes_from_groups _ (b := b) (c := c) (charsToBytes_eq_slice s j) (charValue_eq_slice s j)

/-- Settles O2: the words that decode are encodings; the bytes next to the alphabet have no value. -/
theorem writtenOutWordsDecode : Obligations.WrittenOutWordsDecode := by
  refine ⟨decode_encode .encode, decode_encode .decode, rfl, decode_encode .symA, decode_encode .symZ, decode_encode .sym2,
    decode_encode .sym7, fun c hc => decode_b32sym_of_val_none ?_, decode_encode .sep, rfl, decode_encode .errOK,
    decode_encode .errInvalidEncoding, decode_encode .errChecksumMismatch, rfl⟩
  revert c
  decide

/-- Settles O3: the formulas, the inverse laws and the rows of the symbols. -/
theorem symbolTable : Obligations.SymbolTable := by
  refine ⟨sym_toNat, val_eq_ite_toNat, val_sym, fun _ _ => sym_of_val, fun _ _ => encode_of_symValue, fun v => ?_,
    fun _ => decode_b32sym_of_val_none⟩
  obtain ⟨i, hi⟩ := exists_symbol_of_value v
  exact ⟨i, hi, decode_eq_ok_iff.mpr (encode_of_symValue hi)⟩

/-- Settles O4: a kind's code decodes to its row, so equal codes have equal rows. -/
theorem errorKindsHaveTheirCodes : Obligations.ErrorKindsHaveTheirCodes := by
  refine ⟨fun k => ⟨decode_errCode k, errCode_ne_zero k⟩, fun k k' h => ?_, errDatum_invalidEncoding_toNat,
    fun _ => exists_invalidEncoding_of_errDatum⟩
  have hk := decode_errCode k
  rw [h, decode_errCode k'] at hk
  exact (Except.ok.inj hk).symm

/-- Settles O17: a character row is the HOST's write of its byte, which keeps what `ID_IN` contains elsewhere. -/
theorem characterRowsWriteTheirByte : Obligations.CharacterRowsWriteTheirByte := fun i s h =>
  ⟨s.inp.idBytes s.freeSource s.resetCount, fun _ hv => Inputs.idBytes_of_value hv _ _, exec_charRow i s h⟩

/-- Settles O18: an error row is the HOST's read of its code. -/
theorem errorRowsDeliverTheirCode : Obligations.ErrorRowsDeliverTheirCode := exec_errRow

end Sys2Proof.Machine

/-! PROOFS. The checksum unit: lanes and bytes, the steps of the permutation, and its two tables (spec/40_checksum.md). -/

namespace Sys2Proof.Machine

open Sys2Proof

/-! ### Blocks, lanes and bytes -/

/-- Byte `8i + j` of the array's bytes is byte `j` of lane `i` (40_checksum R102). -/
theorem lanesToBytes_getElem (A : Lanes) (i : Fin 25) (j : Nat) (hj : j < 8) :
    (lanesToBytes A)[8 * i.val + j] = A[i].extractLsb' (8 * j) 8 := by
  have hdiv : (8 * i.val + j) / 8 = i.val := by omega
  have hmod : (8 * i.val + j) % 8 = j := by omega
  simp [lanesToBytes, hdiv, hmod]

/-- BYTES undoes LANES (40_checksum R102). -/
@[simp] theorem lanesToBytes_lanes (B : Bytes 200) : lanesToBytes (lanes B) = B := by
  ext k hk : 1
  have hk' : 8 * (k / 8) + k % 8 = k := Nat.div_add_mod k 8
  have hbyte := (lanesToBytes_getElem (lanes B) ⟨k / 8, by omega⟩ (k % 8) (by omega)).trans
    (lane_byte B ⟨k / 8, by omega⟩ (k % 8) (by omega))
  simpa only [hk'] using hbyte

/-- A lane is the little-endian sum of its eight bytes of the block (40_checksum R102). -/
theorem lanes_toNat (B : Bytes 200) (i : Fin 25) :
    ((lanes B)[i]).toNat = ((List.finRange 8).map fun j => (B[8 * i.val + j.val]).toNat * 2 ^ (8 * j.val)).sum := by
  rw [lanes_getElem, lane_toNat, sum_finRange_eight]
  rfl

/-- From byte 36 on, every byte of the block but the last pad byte is 0 (40_checksum R101). -/
theorem sha3Block_getElem_of_padding (m : Bytes 35) (k : Nat) (hk : k < 200) (h36 : 36 ≤ k) (h135 : k ≠ 135) :
    (sha3Block m)[k] = 0#8 := by
  have h35 : ¬ k < 35 := by omega
  have h35' : k ≠ 35 := by omega
  simp [sha3Block_getElem, h35, h35', h135]

/-- The lanes of the block after the message's, but lane 16, are 0 (40_checksum R102). -/
theorem lanes_sha3Block_of_padding (m : Bytes 35) (i : Fin 25) (h4 : 4 < i.val) (h16 : i.val ≠ 16) :
    (lanes (sha3Block m))[i] = 0#64 := by
  refine lane_ext _ _ fun j hj => ?_
  rw [lane_byte _ _ _ hj, sha3Block_getElem_of_padding m _ _ (by omega) (by omega)]
  simp

/-- Lane 16 of the block holds its last pad bit (40_checksum R102). -/
theorem lanes_sha3Block_sixteen (m : Bytes 35) : (lanes (sha3Block m))[16] = 0x8000000000000000#64 := by
  have h := lanes_getElem (sha3Block m) 16
  simpa [sha3Block_getElem] using h

/-- Lane 4 of the block holds the message's last three bytes and the domain byte (40_checksum R102). -/
theorem lanes_sha3Block_four (m : Bytes 35) :
    ((lanes (sha3Block m))[4]).toNat = m[32].toNat + m[33].toNat * 2 ^ 8 + m[34].toNat * 2 ^ 16 + 0x06 * 2 ^ 24 := by
  have hsum := lanes_toNat (sha3Block m) 4
  simp only [sum_finRange_eight, sha3Block_getElem] at hsum
  simpa [← Nat.add_assoc] using hsum

/-- The digest is the bytes of the first four permuted lanes (40_checksum R101). -/
theorem sha3_256_35_getElem (m : Bytes 35) (k : Nat) (hk : k < 32) :
    (sha3_256_35 m)[k] = (lanesToBytes (keccakF1600 (lanes (sha3Block m))))[k] := by
  unfold sha3_256_35
  simp

/-- The checksum is the digest's first three bytes (40_checksum R109). -/
theorem csum3_getElem (m : Bytes 35) (k : Nat) (hk : k < 3) : (csum3 m)[k] = (sha3_256_35 m)[k] := by
  simp [csum3]

/-! ### The steps of the permutation, lane by lane -/

/-- Indices of lanes are read modulo 5 (40_checksum R103). -/
theorem laneAt_congr (A : Lanes) {x x' y y' : Nat} (hx : x % 5 = x' % 5) (hy : y % 5 = y' % 5) : laneAt A x y = laneAt A x' y' := by
  simp only [laneAt, hx, hy]

theorem columnParity_mod (A : Lanes) (x : Nat) : columnParity A (x % 5) = columnParity A x := by
  simp only [columnParity, laneAt, Nat.mod_mod]

/-- THETA, lane by lane (40_checksum R104). -/
theorem laneAt_theta (A : Lanes) {x y : Nat} (hx : x < 5) (hy : y < 5) :
    laneAt (theta A) x y = laneAt A x y ^^^ (columnParity A (x + 4) ^^^ (columnParity A (x + 1)).rotateLeft 1) := by
  simp only [theta, laneAt_lanesOf _ _ _ hx hy, Vector.getElem_ofFn, Nat.mod_eq_of_lt hx, columnParity_mod]

/-- PI moves the lane at `(x, y)` to `(y, (2x + 3y) mod 5)`, for `x + 5(x + 2y) ≡ x` (40_checksum R106). -/
theorem laneAt_piStep (A : Lanes) {x y : Nat} (hy : y < 5) :
    laneAt (piStep A) y ((2 * x + 3 * y) % 5) = laneAt A x y := by
  rw [piStep, laneAt_lanesOf _ _ _ hy (Nat.mod_lt _ (by decide))]
  exact laneAt_congr A (by omega) rfl

/-- The rounds are applied in the order of their numbers (40_checksum R103). -/
theorem keccakRounds_eq_foldl (n : Nat) (A : Lanes) : keccakRounds n A = (List.range n).foldl keccakRound A := by
  induction n with
  | zero => rfl
  | succ n ih => rw [keccakRounds, ih, List.range_succ, List.foldl_append]; rfl

/-! ### The tables of the permutation -/

/-- The offset at each step of the walk is a triangular number modulo 64 (40_checksum R105). -/
theorem rhoOffset_rhoWalk : ∀ t < 24, rhoOffset (rhoWalk t).1 (rhoWalk t).2 = ((t + 1) * (t + 2) / 2) % 64 := by
  decide

/-- The bits that the round constants use: those at the positions `2^j - 1` (40_checksum R108). -/
def rcMask : Lane := 0x800000008000808B#64

theorem rcMask_getLsbD : ∀ b < 64, rcMask.getLsbD b = (List.range 7).any fun j => b == 2 ^ j - 1 := by
  decide

/-- A round constant has no other bits (40_checksum R108). -/
theorem roundConstant_and_rcMask : ∀ ir < 24, roundConstant ir &&& rcMask = roundConstant ir := by
  decide

/-- Bit `2^j - 1` of a round constant is the shift register's bit (40_checksum R108). -/
theorem roundConstant_getLsbD_two_pow : ∀ ir < 24, ∀ j < 7, (roundConstant ir).getLsbD (2 ^ j - 1) = rcBit (j + 7 * ir) := by
  decide

/-- Bit `b` of a round constant, from the shift register (40_checksum R108): the mask says which positions can hold it. -/
theorem roundConstant_getLsbD {ir b : Nat} (hir : ir < 24) (hb : b < 64) :
    (roundConstant ir).getLsbD b = (List.range 7).any fun j => b == 2 ^ j - 1 && rcBit (j + 7 * ir) := by
  rw [← roundConstant_and_rcMask ir hir, BitVec.getLsbD_and, rcMask_getLsbD b hb, List.and_any_distrib_left, Bool.eq_iff_iff,
    List.any_eq_true, List.any_eq_true]
  refine exists_congr fun j => and_congr_right fun hj => ?_
  by_cases hbj : b = 2 ^ j - 1
  · simp [hbj, roundConstant_getLsbD_two_pow ir hir j (List.mem_range.mp hj)]
  · simp [hbj]

/-! ### The statements -/

/-- Settles O25: both maps byte by byte, the block's lanes from its bytes, and the first three bytes of the digest in lane 0. -/
theorem lanesAndBytes : Obligations.LanesAndBytes := by
  refine ⟨lanes_toNat, fun A i j => ?_, lanesToBytes_lanes, fun m => ⟨fun i => ?_, lanes_sha3Block_four m,
    lanes_sha3Block_sixteen m, lanes_sha3Block_of_padding m⟩, fun m i => sha3_256_35_getElem m i i.isLt, fun m i => ?_⟩
  · rw [lanesToBytes_getElem A i j j.isLt]
    exact BitVec.setWidth_ushiftRight_eq_extractLsb.symm
  · have hi : i.val < 35 := by omega
    simp [sha3Block_getElem, hi]
  · have hbyte := lanesToBytes_getElem (keccakF1600 (lanes (sha3Block m))) 0 i (by omega)
    simpa [csum3_getElem, sha3_256_35_getElem] using hbyte

/-- Settles O26: the steps lane by lane, and the rounds as a fold. -/
theorem keccakStepsByLane : Obligations.KeccakStepsByLane :=
  ⟨fun A x y hx hy => ⟨laneAt_theta A hx hy, laneAt_piStep A hy, laneAt_lanesOf _ x y hx hy⟩, fun _ _ => rfl,
    keccakRounds_eq_foldl 24⟩

/-- Settles O27: the steps lane by lane; each offset against the walk, and each bit of the constants against the shift register. -/
theorem keccakTablesAreGenerated : Obligations.KeccakTablesAreGenerated := by
  refine ⟨fun A x y hx hy => laneAt_lanesOf _ x y hx hy, rfl, rhoOffset_rhoWalk, fun A ir _ => ⟨?_, fun i hi => ?_⟩,
    fun ir hir b hb => roundConstant_getLsbD hir hb⟩
  · simp [iota]
  · simp [iota, Ne.symm hi]

/-- Settles O24: the checksum reads the digest from byte 0. -/
theorem checksumIsTheFirstThreeBytes : Obligations.ChecksumIsTheFirstThreeBytes :=
  fun m i => csum3_getElem m i i.isLt

end Sys2Proof.Machine

/-! PROOFS. The case normaliser UPCASE3 (spec/42_assembler.md). -/

namespace Sys2Proof.Machine

open Sys2Proof

/-! ### One byte -/

/-- UPCASE3 of a byte, with its bounds and its subtraction in numbers (42_assembler R140). -/
theorem upcaseByte_eq_ite_toNat (b : Byte) :
    upcaseByte b = if 0x61 ≤ b.toNat ∧ b.toNat ≤ 0x7A then BitVec.ofNat 8 (b.toNat - 0x20) else b := by
  simp only [upcaseByte, BitVec.le_def, BitVec.toNat_ofNat, Nat.reducePow, Nat.reduceMod]
  split_ifs with hlower
  · bv_omega
  · rfl

/-- A lowercase letter loses `0x20` and falls below `0x61`; any other byte stays as it is (42_assembler R140). -/
theorem upcaseByte_not_lowercase (b : Byte) : ¬ (0x61 ≤ (upcaseByte b).toNat ∧ (upcaseByte b).toNat ≤ 0x7A) := by
  rw [upcaseByte_eq_ite_toNat]
  split_ifs with hlower
  · rw [BitVec.toNat_ofNat]
    omega
  · exact hlower

/-! ### The statement -/

/-- Settles O23: UPCASE3 acts byte by byte, so each clause is the one on `upcaseByte`. -/
theorem upcaseFoldsAsciiLettersOnly : Obligations.UpcaseFoldsAsciiLettersOnly := by
  intro p i
  have hbyte (q : Bytes 3) : (upcase3 q)[i] = upcaseByte q[i] := upcase3_getElem q i i.isLt
  rw [hbyte (upcase3 p), hbyte p]
  exact ⟨upcaseByte_eq_ite_toNat p[i], upcaseByte_idem p[i], upcaseByte_not_lowercase p[i], upcaseByte_eq_separator p[i]⟩

end Sys2Proof.Machine

/-! PROOFS. The split of a text at its separators (spec/43_parser.md). -/

namespace Sys2Proof.Machine

open Sys2Proof

/-- SPLIT undoes the joining of separator-free tokens (43_parser R152): each token ends where the next separator stands. -/
theorem split_of_join (t : List Byte) (ts : List (List Byte)) (ht : ∀ c ∈ t, c ≠ Config.separator)
    (hts : ∀ u ∈ ts, ∀ c ∈ u, c ≠ Config.separator) :
    split (t ++ (ts.map fun u => Config.separator :: u).flatten) = (t, ts) := by
  induction ts generalizing t with
  | nil => simpa using split_of_no_separator t ht
  | cons u us ih =>
    obtain ⟨hu, hus⟩ := List.forall_mem_cons.mp hts
    rw [List.map_cons, List.flatten_cons, List.cons_append, split_append_separator _ _ ht, ih u hu hus]

/-- Settles O31: the tokens of SPLIT hold no separator and join to the text, and SPLIT undoes every such joining. -/
theorem splitIsTheOnlySplit : Obligations.SplitIsTheOnlySplit := by
  intro l t ts
  constructor
  · intro hsplit
    have hfree := split_no_separator l
    have hjoin := split_join l
    rw [hsplit] at hfree hjoin
    exact ⟨hfree.1, hfree.2, hjoin⟩
  · rintro ⟨ht, hts, rfl⟩
    exact split_of_join t ts ht hts

end Sys2Proof.Machine

/-! PROOFS. The checksum comparator, and the error multiplexer on checks evaluated side by side (spec/44_compare_errmux.md). -/

namespace Sys2Proof.Machine

open Sys2Proof

/-! ### The comparator -/

/-- CSCMP looks at all three bytes, and at nothing else (44_compare_errmux R170). -/
theorem cscmp_eq_true_iff (emb computed : Bytes 3) :
    cscmp emb computed = true ↔ emb[0] = computed[0] ∧ emb[1] = computed[1] ∧ emb[2] = computed[2] := by
  simp [cscmp, and_assoc]

/-! ### The parser's flags -/

/-- Every position of an identifier is one of the first three, of a separator, or of a payload character (30_encoding R71). -/
theorem position_cases (i : Fin 66) :
    (∃ k : Fin 3, i = ⟨k.val, by omega⟩) ∨ (∃ j : Fin 7, i = ⟨3 + 9 * j.val, by omega⟩) ∨
      ∃ k : Fin 56, i = ⟨4 + k.val + k.val / 8, by omega⟩ := by
  by_cases hprefix : i.val < 3
  · exact .inl ⟨⟨i.val, hprefix⟩, rfl⟩
  · by_cases hsep : (i.val - 3) % 9 = 0
    · exact .inr (.inl ⟨⟨(i.val - 3) / 9, by omega⟩, Fin.ext (by dsimp only; omega)⟩)
    · exact .inr (.inr ⟨⟨8 * ((i.val - 3) / 9) + ((i.val - 3) % 9 - 1), by omega⟩, Fin.ext (by dsimp only; omega)⟩)

/-- The separators of an identifier assembled from separator-free parts stand exactly at `Q` (43_parser R157). -/
theorem assemble_eq_separator_iff {p : Bytes 3} {s : Bytes 56} (hp : noSeparator p) (hs : noSeparator s) (i : Fin 66) :
    (assemble p s)[i] = Config.separator ↔ i ∈ sepPositions := by
  rcases position_cases i with ⟨k, rfl⟩ | ⟨j, rfl⟩ | ⟨k, rfl⟩
  · refine iff_of_false (fun h => hp k ?_) (prefix_position_not_separator k)
    exact (assemble_getElem_prefix p s k k.isLt).symm.trans h
  · exact iff_of_true (assemble_getElem_separator p s j j.isLt) (separator_position j)
  · refine iff_of_false (fun h => hs k ?_) (payload_position_not_separator k)
    exact (assemble_getElem_payload p s k k.isLt).symm.trans h

theorem sepsInPlace_iff (id : Bytes 66) :
    sepsInPlace id = true ↔ ∀ i : Fin 66, id[i] = Config.separator ↔ i ∈ sepPositions := by
  simp only [sepsInPlace, sepAt, List.all_eq_true, List.mem_finRange, true_implies, beq_eq_decide, decide_eq_true_eq,
    decide_eq_decide]

theorem firstTokenIs3_iff (id : Bytes 66) : firstTokenIs3 id = true ↔ (split id.toList).1.length = 3 := by
  rw [first_token_by_position]
  simp [firstTokenIs3, sepAt, and_assoc]

/-- PARSE succeeds exactly when the separators stand at `Q` (43_parser R157). -/
theorem exists_parse_eq_ok_iff (id : Bytes 66) : (∃ t, parse 66 id = .ok t) ↔ sepsInPlace id = true := by
  rw [sepsInPlace_iff]
  constructor
  · rintro ⟨t, ht⟩
    obtain ⟨hid, -, hp, hs⟩ := parse_ok_iff.mp ht
    rw [hid]
    exact assemble_eq_separator_iff hp hs
  · intro hsep
    have hid : id = assemble (prefixSlice id) (payloadSlice id) :=
      ext_positions _ _
        (fun i => by simp [assemble_getElem_prefix, prefixSlice])
        (fun j => ((hsep _).mpr (separator_position j)).trans (assemble_getElem_separator _ _ j j.isLt).symm)
        (fun i => by rw [assemble_getElem_payload _ _ i i.isLt]; simp [payloadSlice])
    have hp : noSeparator (prefixSlice id) := fun i h =>
      prefix_position_not_separator i ((hsep _).mp (by simpa [prefixSlice] using h))
    have hs : noSeparator (payloadSlice id) := fun i h =>
      payload_position_not_separator i ((hsep _).mp (by simpa [payloadSlice] using h))
    exact ⟨⟨prefixSlice id, segmentsOf (payloadSlice id), payloadSlice id⟩, parse_ok_iff.mpr ⟨hid, rfl, hp, hs⟩⟩

/-- Everything PARSE can do, by its flags: the first check that fails decides (43_parser R150, R157). -/
theorem parse_cases (n : Nat) (id : Bytes 66) :
    (n ≠ 66 ∧ parse n id = .error .invalidIdentifierLength) ∨
    (n = 66 ∧ firstTokenIs3 id = false ∧ parse n id = .error .invalidPrefixLength) ∨
    (n = 66 ∧ firstTokenIs3 id = true ∧ sepCount id ≠ 7 ∧ parse n id = .error .invalidDataSegmentCount) ∨
    (n = 66 ∧ firstTokenIs3 id = true ∧ sepCount id = 7 ∧ sepsInPlace id = false ∧
      parse n id = .error .invalidDataSegmentLength) ∨
    (n = 66 ∧ firstTokenIs3 id = true ∧ sepCount id = 7 ∧ sepsInPlace id = true ∧ ∃ t, parse n id = .ok t) := by
  by_cases hn : n = 66
  · subst hn
    have hcheck : parse 66 id = checkTokens (split id.toList).1 (split id.toList).2 := rfl
    have hcount : sepCount id = (split id.toList).2.length := (split_segment_count id.toList).symm
    have hplace := exists_parse_eq_ok_iff id
    rw [← Bool.not_eq_true, ← Bool.not_eq_true, firstTokenIs3_iff, hcount, ← hplace]
    cases hr : parse 66 id with
    | ok t =>
      obtain ⟨hp, hc, -⟩ := checkTokens_eq_ok.mp (hcheck.symm.trans hr)
      simp [hp, hc]
    | error k =>
      rcases (checkTokens_eq_error _ _ k).mp (hcheck.symm.trans hr) with ⟨hp, rfl⟩ | ⟨hp, hc, rfl⟩ | ⟨hp, hc, -, rfl⟩
      · simp [hp]
      · simp [hp, hc]
      · simp [hp, hc]
  · exact .inl ⟨hn, if_neg hn⟩

/-- A successful parse has passed every check (43_parser R157). -/
theorem flags_of_parse_eq_ok {n : Nat} {id : Bytes 66} {t : Parsed} (h : parse n id = .ok t) :
    n = 66 ∧ firstTokenIs3 id = true ∧ sepCount id = 7 ∧ sepsInPlace id = true := by
  simpa [h] using parse_cases n id

/-! ### The sequential command -/

theorem decodeCmd_of_parse_eq_error {n : Nat} {id : Bytes 66} {k : ErrKind} (h : parse n id = .error k) :
    decodeCmd n id = .error k := by
  simp only [decodeCmd, h]

theorem decodeCmd_of_firstBad_eq_some {n : Nat} {id : Bytes 66} {t : Parsed} {i : Fin 56} (ht : parse n id = .ok t)
    (hbad : firstBad t.s56 = some i) : decodeCmd n id = .error (.invalidEncoding i) := by
  simp only [decodeCmd, ht, b32dec, hbad]

theorem decodeCmd_of_b32dec_eq_ok {n : Nat} {id : Bytes 66} {t : Parsed} {pay : Bytes 35} (ht : parse n id = .ok t)
    (hpay : b32dec t.s56 = .ok pay) : decodeCmd n id = verifyPayload t.p0 pay := by
  simp only [decodeCmd, ht, hpay]

/-! ### The error multiplexer -/

/-- ENCODE: the flags of its two length checks (44_compare_errmux R172). -/
theorem errmux_encodeFlags (np nk : Nat) (pfx : Bytes 3) (key : Bytes 32) (other : ErrFlags) (pos : BitVec 6) :
    errmux 0#1 (encodeFlags np nk other) pos = statusOf (encodeCmd np pfx nk key) := by
  by_cases hp : np = 3
  · by_cases hk : nk = 32
    · simp [errmux, encodeFlags, encodeCmd, statusOf, hp, hk]
    · simp [errmux, encodeFlags, encodeCmd, statusOf, errCode, errDatum, hp, hk]
  · simp [errmux, encodeFlags, encodeCmd, statusOf, errCode, errDatum, hp]

section
variable {n : Nat} {id : Bytes 66}

/-- An error of the parser is reported whatever the units after it are fed (44_compare_errmux R174). -/
theorem errmux_decodeFlags_of_parse_eq_error {k : ErrKind} (h : parse n id = .error k) (s56 : Bytes 56) (p0 : Bytes 3)
    (pay : Bytes 35) (other : ErrFlags) (pos : BitVec 6) :
    errmux 1#1 (decodeFlags n id s56 p0 pay other) pos = (errCode k, errDatum k) := by
  rcases parse_cases n id with ⟨hn, e⟩ | ⟨hn, hp, e⟩ | ⟨hn, hp, hc, e⟩ | ⟨hn, hp, hc, hl, e⟩ | ⟨-, -, -, -, t, e⟩ <;>
    rw [h] at e <;> cases e
  · simp [errmux, decodeFlags, errCode, errDatum, hn]
  · simp [errmux, decodeFlags, errCode, errDatum, hn, hp]
  · simp [errmux, decodeFlags, errCode, errDatum, hn, hp, hc]
  · simp [errmux, decodeFlags, errCode, errDatum, hn, hp, hc, hl]

/-- After a successful parse the alphabet check and the comparator decide (44_compare_errmux R173). -/
theorem errmux_decodeFlags_of_parse_eq_ok {t : Parsed} (h : parse n id = .ok t) (s56 : Bytes 56) (p0 : Bytes 3)
    (pay : Bytes 35) (other : ErrFlags) (pos : BitVec 6) :
    errmux 1#1 (decodeFlags n id s56 p0 pay other) pos =
      if (firstBad s56).isSome then (6#3, pos) else statusOf (verifyPayload p0 pay) := by
  obtain ⟨hn, hp, hc, hl⟩ := flags_of_parse_eq_ok h
  cases hm : cscmp (payloadChecksum pay) (csum3 (hashInput (payloadKey pay) (upcase3 p0))) <;>
    simp [errmux, decodeFlags, verifyPayload, statusOf, errCode, errDatum, hn, hp, hc, hl, hm]

end

/-! ### The statements -/

/-- Settles O34: three equal bytes make equal vectors. -/
theorem comparatorIsEquality : Obligations.ComparatorIsEquality := by
  intro emb computed
  have hbytes := cscmp_eq_true_iff emb computed
  refine ⟨hbytes, fun h => ?_, fun h => hbytes.mpr (by simp [h])⟩
  obtain ⟨h0, h1, h2⟩ := hbytes.mp h
  ext i hi : 1
  match i, hi with
  | 0, _ => exact h0
  | 1, _ => exact h1
  | 2, _ => exact h2

/-- Settles O15: a parser's error masks the later flags; after a successful parse the alphabet check masks the comparator's flag or lets
it decide. -/
theorem errmuxGivesTheSequentialStatus : Obligations.ErrmuxGivesTheSequentialStatus := by
  refine ⟨fun np nk pfx key => errmux_encodeFlags np nk pfx key, fun n id s56 p0 pay other hfed => ?_⟩
  cases hr : parse n id with
  | error k =>
    rw [errmux_decodeFlags_of_parse_eq_error hr, decodeCmd_of_parse_eq_error hr]
    rfl
  | ok t =>
    obtain ⟨rfl, rfl, hpay⟩ := hfed t hr
    rw [errmux_decodeFlags_of_parse_eq_ok hr]
    cases hbad : firstBad t.s56 with
    | some i =>
      rw [decodeCmd_of_firstBad_eq_some hr hbad]
      simp [badPosition, hbad, statusOf, errCode, errDatum]
    | none =>
      have hdec : b32dec t.s56 = .ok (charsToBytes t.s56) := by simp only [b32dec, hbad]
      rw [hpay _ hdec, decodeCmd_of_b32dec_eq_ok hr hdec]
      simp

end Sys2Proof.Machine

/-! PROOFS. The operations of the core: what one turn of the HOST or of the CORE does, in full, and which result a request has
(spec/45_operations.md). -/

namespace Sys2Proof.Machine

open Sys2Proof

/-! ### The rows that a turn runs -/

/-- A core that is not busy has no step (45_operations R201). -/
theorem State.coreTurn_of_idle {s : State} (h : s.busy = false) : s.coreTurn = .next s := by
  simp [State.coreTurn, h]

theorem State.hostTurn_idChar_of_row {s : State} {k : Fin 66} {c : Byte} {i : Instr} (h : decodeChar c = .ok i) :
    s.hostTurn (.write (.idChar k c)) = exec i { s with idSel := k } := by
  simp [State.hostTurn, State.charTurn, h]

theorem State.hostTurn_readErr_of_row {s : State} {i : Instr} (h : decode (errItem s.err) = .ok i) :
    s.hostTurn (.read .err) = exec i s := by
  simp [State.hostTurn, State.errTurn, h]

/-! ### START -/

theorem State.start_of_busy {s : State} (hb : s.busy = true) : s.start = .next s := by
  simp [State.start, hb]

theorem State.start_of_readable {s : State} (hb : s.busy = false) (hr : s.inp.readable = true) :
    s.start = .next { s with req := s.inp, busy := true, done := false } := by
  simp [State.start, hb, hr]

theorem State.start_of_unreadable {s : State} (hb : s.busy = false) (hr : s.inp.readable = false) :
    s.start = .refused .unwrittenInput := by
  simp [State.start, hb, hr]

/-! ### ENCODE on the registers of its request -/

theorem Inputs.runEncode_of_pfxLen {r : Inputs} {np : Nat} (hp : r.pfxLen = .value np) (hne : np ≠ 3) (j e : Nat) :
    r.runEncode j e = .error .invalidPrefixLength := by
  simp [Inputs.runEncode, encodeCmd, hp, hne]

theorem Inputs.runEncode_of_keyLen {r : Inputs} {nk : Nat} (hp : r.pfxLen = .value 3) (hk : r.keyLen = .value nk) (hne : nk ≠ 32)
    (j e : Nat) : r.runEncode j e = .error .invalidInputLength := by
  simp [Inputs.runEncode, encodeCmd, hp, hk, hne]

theorem Inputs.runEncode_of_encodeRequest {r : Inputs} {pfx : Bytes 3} {key : Bytes 32} (h : r.encodeRequest pfx key) (j e : Nat) :
    r.runEncode j e = .ok (encodeKey pfx key) := by
  obtain ⟨hpl, hkl, hp, hk⟩ := h
  simp [Inputs.runEncode, encodeCmd, hpl, hkl, Inputs.pfxBytes_of_value hp, Inputs.keyBytes_of_value hk]

theorem execEncode_of_error {s : State} {k : ErrKind} (h : s.req.runEncode s.freeSource s.resetCount = .error k) :
    execEncode s = .next { s with idOut := .any, err := errCode k, errPos := errDatum k, busy := false, done := true } := by
  rw [execEncode, h]
  exact congrArg Host.Outcome.next (s.raiseErr_encode k)

theorem execEncode_of_ok {s : State} {id : Bytes 66} (h : s.req.runEncode s.freeSource s.resetCount = .ok id) :
    execEncode s = .next { s with idOut := .value id, err := 0#3, errPos := 0#6, busy := false, done := true } := by
  rw [execEncode, h]
  rfl

/-! ### DECODE on the registers of its request -/

theorem Inputs.runDecode_of_idLen {r : Inputs} {n : Nat} (hn : r.idLen = .value n) (hne : n ≠ 66) (j e : Nat) :
    r.runDecode j e = .error .invalidIdentifierLength := by
  simp [Inputs.runDecode, decodeCmd, parse, hn, hne]

theorem Inputs.runDecode_of_idIn {r : Inputs} {n : Nat} {id : Bytes 66} (hn : r.idLen = .value n) (hi : r.idIn = .value id)
    (j e : Nat) : r.runDecode j e = decodeCmd n id := by
  simp [Inputs.runDecode, hn, Inputs.idBytes_of_value hi]

/-- The parser's errors carry no datum (30_encoding R77). -/
theorem errDatum_of_parse_eq_error {n : Nat} {id : Bytes 66} {k : ErrKind} (h : parse n id = .error k) : errDatum k = 0#6 := by
  rcases parse_cases n id with ⟨-, e⟩ | ⟨-, -, e⟩ | ⟨-, -, -, e⟩ | ⟨-, -, -, -, e⟩ | ⟨-, -, -, -, t, e⟩ <;>
    cases h.symm.trans e <;> rfl

theorem decodeCmd_of_b32dec_eq_error {n : Nat} {id : Bytes 66} {t : Parsed} {i : Fin 56} (ht : parse n id = .ok t)
    (hdec : b32dec t.s56 = .error i) : decodeCmd n id = .error (.invalidEncoding i) := by
  simp only [decodeCmd, ht, hdec]

/-- The checksum decides on a payload: the comparator is equality (44_compare_errmux R170). -/
theorem verifyPayload_eq_ite (p0 : Bytes 3) (pay : Bytes 35) :
    verifyPayload p0 pay =
      if payloadChecksum pay = csum3 (hashInput (payloadKey pay) (upcase3 p0)) then .ok (payloadKey pay)
      else .error .checksumMismatch := by
  simp only [verifyPayload, (comparatorIsEquality _ _).2]

theorem execDecode_of_error {s : State} {k : ErrKind} (h : s.req.runDecode s.freeSource s.resetCount = .error k) :
    execDecode s = .next { s with keyOut := .any, err := errCode k, errPos := errDatum k, busy := false, done := true } := by
  rw [execDecode, h]
  exact congrArg Host.Outcome.next (s.raiseErr_decode k)

theorem execDecode_of_ok {s : State} {key : Bytes 32} (h : s.req.runDecode s.freeSource s.resetCount = .ok key) :
    execDecode s = .next { s with keyOut := .value key, err := 0#3, errPos := 0#6, busy := false, done := true } := by
  rw [execDecode, h]
  rfl

/-! ### The statements on one turn -/

/-- Settles O5: the core's turn decodes `REQ.OP`, and the two fetching turns of the HOST decode the character and `ERR`. -/
theorem stepRunsTheDecodedRow : Obligations.StepRunsTheDecodedRow := by
  refine ⟨fun s o i hc hb ho hd => ?_, fun s hc hb => ?_, fun s k c i ha hd => ?_, fun s i ha hd => ?_⟩
  · exact (step_of_isCoreTurn hc).trans (State.coreTurn_of_op (s := s.popTurn) hb ho hd)
  · exact (step_of_isCoreTurn hc).trans (State.coreTurn_of_idle (s := s.popTurn) hb)
  · exact (step_of_isHostTurn ha).trans (State.hostTurn_idChar_of_row hd)
  · exact (step_of_isHostTurn ha).trans (State.hostTurn_readErr_of_row (s := s.popTurn) hd)

/-- Settles O9: the branches of START, by `BUSY` and by whether the command's registers hold values. -/
theorem startSamplesOrIsIgnored : Obligations.StartSamplesOrIsIgnored := by
  intro s ha
  have hstep : step s = s.popTurn.start := step_of_isHostTurn ha
  refine ⟨fun hb => ?_, fun hb hr => ?_, fun hb hr => ?_⟩
  · exact hstep.trans (State.start_of_busy hb)
  · exact hstep.trans (State.start_of_readable hb hr)
  · exact hstep.trans (State.start_of_unreadable hb hr)

/-- Settles O11: the request's registers give the command's result, and the result the whole next state. -/
theorem encodeCompletes : Obligations.EncodeCompletes := by
  intro s
  refine ⟨fun np hp hne => ?_, fun nk hp hk hne => ?_, fun pfx key h => ?_⟩
  · exact execEncode_of_error (Inputs.runEncode_of_pfxLen hp hne _ _)
  · exact execEncode_of_error (Inputs.runEncode_of_keyLen hp hk hne _ _)
  · exact execEncode_of_ok (Inputs.runEncode_of_encodeRequest h _ _)

/-- Settles O12: the checks of DECODE in their order, each with the whole next state it leads to. -/
theorem decodeCompletes : Obligations.DecodeCompletes := by
  intro s
  refine ⟨fun n hn hne => execDecode_of_error (Inputs.runDecode_of_idLen hn hne _ _), fun id hn hi => ?_⟩
  have hrun := Inputs.runDecode_of_idIn hn hi s.freeSource s.resetCount
  refine ⟨fun k hk => ?_, fun t pos ht hdec => ?_, fun t pay ht hdec hne => ?_, fun t pay ht hdec heq => ?_⟩
  · rw [← errDatum_of_parse_eq_error hk]
    exact execDecode_of_error (hrun.trans (decodeCmd_of_parse_eq_error hk))
  · exact execDecode_of_error (hrun.trans (decodeCmd_of_b32dec_eq_error ht hdec))
  · refine execDecode_of_error (k := .checksumMismatch) ?_
    rw [hrun, decodeCmd_of_b32dec_eq_ok ht hdec, verifyPayload_eq_ite, if_neg hne]
  · refine execDecode_of_ok ?_
    rw [hrun, decodeCmd_of_b32dec_eq_ok ht hdec, verifyPayload_eq_ite, if_pos heq]

/-- Settles O19: register by register; a data register takes the bytes written over what it contains. -/
theorem hostWriteChangesOneRegister : Obligations.HostWriteChangesOneRegister := by
  intro s w ha
  refine ⟨s.inp.pfxBytes s.freeSource s.resetCount, s.inp.keyBytes s.freeSource s.resetCount, s.inp.idBytes s.freeSource s.resetCount,
    fun _ h => Inputs.pfxBytes_of_value h _ _, fun _ h => Inputs.keyBytes_of_value h _ _, fun _ h => Inputs.idBytes_of_value h _ _, ?_⟩
  rw [step_of_isHostTurn ha]
  have hinp {q q' : Inputs} (h : q = q') :
      (.next { s.popTurn with inp := q } : Host.Outcome State Fault Refusal) = .next { s.popTurn with inp := q' } := by rw [h]
  cases w with
  | op v => rfl
  | pfxLen n => exact hinp (congrArg (fun l => { s.inp with pfxLen := .value l }) (saturate_eq_min n))
  | keyLen n => exact hinp (congrArg (fun l => { s.inp with keyLen := .value l }) (saturate_eq_min n))
  | idLen n => exact hinp (congrArg (fun l => { s.inp with idLen := .value l }) (saturate_eq_min n))
  | pfx m => exact hinp (apply_ite (fun x => { s.inp with pfx := x }) _ _ _)
  | keyIn m => exact hinp (apply_ite (fun x => { s.inp with keyIn := x }) _ _ _)
  | idIn m => exact hinp (apply_ite (fun x => { s.inp with idIn := x }) _ _ _)
  | idChar i c => exact State.charTurn_eq _ _ _

/-- Settles O21: a status port delivers its field, an output register its value or the free bytes it draws. -/
theorem hostReadDeliversAndDisturbsNothing : Obligations.HostReadDeliversAndDisturbsNothing := by
  intro s p ha
  rw [step_of_isHostTurn ha, State.hostTurn_read]
  cases p with
  | busy => exact ⟨_, _, rfl, rfl⟩
  | done => exact ⟨_, _, rfl, rfl⟩
  | err => exact ⟨_, _, rfl, rfl⟩
  | errPos => exact ⟨_, _, rfl, rfl⟩
  | idOut =>
    refine ⟨.idOut (s.idOut.read s.freeSource s.freeCount), s.freeCount + s.idOut.draws, rfl, fun id h => ?_, fun h => ?_⟩
    · rw [h]; rfl
    · rcases h with h | h <;> rw [h] <;> exact ⟨rfl, rfl⟩
  | keyOut =>
    refine ⟨.keyOut (s.keyOut.read s.freeSource s.freeCount), s.freeCount + s.keyOut.draws, rfl, fun key h => ?_, fun h => ?_⟩
    · rw [h]; rfl
    · rcases h with h | h <;> rw [h] <;> exact ⟨rfl, rfl⟩

end Sys2Proof.Machine

/-! PROOFS. The transaction lines: a run of the turns of a line, from any state, and what the HOST has read at its end
(spec/45_operations.md R196, R197). -/

namespace Sys2Proof.Machine

open Sys2Proof

/-! ### Runs of given turns -/

/-- From `s` the machine takes the turns `ts`, which stand first in the agenda, and is then in `t`. -/
def State.RunsTo (s : State) (ts : List Turn) (t : State) : Prop :=
  advanceN ts.length (.next s) = .next t ∧ s.agenda = ts ++ t.agenda

theorem State.RunsTo.nil (s : State) : s.RunsTo [] s := ⟨rfl, rfl⟩

theorem State.RunsTo.append {s t u : State} {ts us : List Turn} (h : s.RunsTo ts t) (h' : t.RunsTo us u) :
    s.RunsTo (ts ++ us) u := by
  obtain ⟨hrun, hag⟩ := h
  obtain ⟨hrun', hag'⟩ := h'
  refine ⟨?_, by rw [hag, hag', List.append_assoc]⟩
  rw [List.length_append, advanceN_add, hrun, hrun']

theorem State.popTurn_of_agenda {s : State} {x : Turn} {rest : List Turn} (h : s.agenda = x :: rest) :
    s.popTurn = { s with agenda := rest } := by
  simp [State.popTurn, h]

/-- No action of the HOST touches the turns to come (log 14). -/
theorem State.hostTurn_agenda {s t : State} {a : HostAction} (h : s.hostTurn a = .next t) : t.agenda = s.agenda := by
  rcases s.hostTurn_cases a with ⟨_, e⟩ | ⟨_, _, e⟩ | ⟨_, _, e⟩ | ⟨_, _, e⟩ <;> rw [e] at h
  · cases h; rfl
  · rcases s.start_cases with ⟨_, e'⟩ | ⟨_, _, e'⟩ | ⟨_, _, e'⟩ <;> rw [e'] at h <;> cases h <;> rfl
  · cases h; rfl
  · cases h; rfl

section
variable {s t u : State} {rest ts : List Turn}

/-- A run whose first turn is the core's. -/
theorem State.RunsTo.core (hag : s.agenda = .core :: rest) (h : { s with agenda := rest }.coreTurn = .next t)
    (h' : t.RunsTo ts u) : s.RunsTo (.core :: ts) u := by
  have hstep : step s = .next t := by
    rw [step_of_isCoreTurn (.inr ⟨rest, hag⟩), State.popTurn_of_agenda hag, h]
  have hfirst : s.RunsTo [.core] t := ⟨hstep, by rw [hag, (State.coreTurn_frame h).1]; rfl⟩
  exact hfirst.append h'

/-- A run whose first turn is an action of the HOST. -/
theorem State.RunsTo.host {a : HostAction} (hag : s.agenda = .host a :: rest) (h : { s with agenda := rest }.hostTurn a = .next t)
    (h' : t.RunsTo ts u) : s.RunsTo (.host a :: ts) u := by
  have hstep : step s = .next t := by
    rw [step_of_isHostTurn ⟨rest, hag⟩, State.popTurn_of_agenda hag, h]
  have hfirst : s.RunsTo [.host a] t := ⟨hstep, by rw [hag, State.hostTurn_agenda h]; rfl⟩
  exact hfirst.append h'

end

/-! ### The wait for `BUSY` = 0 -/

/-- The core's turn ends with `BUSY` = 0, and it is no RESET (45_operations R193). -/
theorem State.coreTurn_ends {s t : State} (h : s.coreTurn = .next t) : t.busy = false ∧ t.resetCount = s.resetCount := by
  rcases s.coreTurn_cases with ⟨hb, e⟩ | ⟨_, _, e⟩ | ⟨_, _, e⟩
  · rw [e] at h; cases h; exact ⟨hb, rfl⟩
  · rcases execEncode_cases s with ⟨_, _, e'⟩ | ⟨_, _, e'⟩ <;> rw [e, e'] at h <;> cases h <;> exact ⟨rfl, rfl⟩
  · rcases execDecode_cases s with ⟨_, _, e'⟩ | ⟨_, _, e'⟩ <;> rw [e, e'] at h <;> cases h <;> exact ⟨rfl, rfl⟩

/-! ### The writes of a line -/

/-- Several HOST_WRITEs, one after the other (45_operations R194). -/
def Inputs.hostWrites (r : Inputs) (j e : Nat) (ws : List HostWrite) : Inputs := ws.foldl (fun q w => q.hostWrite j e w) r

theorem Inputs.hostWrites_append (r : Inputs) (j e : Nat) (ws ws' : List HostWrite) :
    r.hostWrites j e (ws ++ ws') = (r.hostWrites j e ws).hostWrites j e ws' :=
  List.foldl_append

/-- The turn that makes a write. -/
def writeTurn (w : HostWrite) : Turn := .host (.write w)

/-- A run of writes touches the input registers and the addressed byte alone. -/
theorem State.runsTo_writes (ws : List HostWrite) (s : State) (rest : List Turn) (hag : s.agenda = ws.map writeTurn ++ rest) :
    ∃ k, s.RunsTo (ws.map writeTurn)
      { s with inp := s.inp.hostWrites s.freeSource s.resetCount ws, idSel := k, agenda := rest } := by
  induction ws generalizing s with
  | nil =>
    refine ⟨s.idSel, ?_⟩
    obtain rfl : s.agenda = rest := hag
    exact State.RunsTo.nil s
  | cons w ws ih =>
    obtain ⟨i, hw⟩ := State.hostTurn_write { s with agenda := ws.map writeTurn ++ rest } w
    obtain ⟨k, hrun⟩ := ih { s with inp := s.inp.hostWrite s.freeSource s.resetCount w, idSel := i,
                                    agenda := ws.map writeTurn ++ rest } rfl
    exact ⟨k, State.RunsTo.host hag hw hrun⟩

/-- A write of every byte of a register leaves exactly these bytes. -/
theorem writeBytes_fullWrite {n : Nat} (hn : 0 < n) (r : Slot (Bytes n)) (old v : Bytes n) :
    writeBytes r old (fullWrite v) = .value v := by
  have hany : (fullWrite v).toList.any Option.isSome = true :=
    List.any_eq_true.mpr ⟨some v[0], Vector.mem_toList_iff.mpr (Vector.mem_iff_getElem.mpr ⟨0, hn, by simp [fullWrite]⟩), rfl⟩
  rw [writeBytes, if_pos hany]
  congr 1
  ext i hi : 1
  simp [fullWrite]

/-- The write that `dataTurns` makes of a sequence of the right length. -/
def dataWrites (n : Nat) (write : Vector (Option Byte) n → HostWrite) (l : List Byte) : List HostWrite :=
  if h : l.length = n then [write (fullWrite ⟨l.toArray, h⟩)] else []

theorem dataTurns_eq_map (n : Nat) (write : Vector (Option Byte) n → HostWrite) (l : List Byte) :
    dataTurns n write l = (dataWrites n write l).map writeTurn := by
  unfold dataTurns dataWrites
  split <;> rfl

/-- A data register after the write of a line: the sequence where it has the right length (10_state R22). -/
def Slot.load {n : Nat} (x : Slot (Bytes n)) (l : List Byte) : Slot (Bytes n) :=
  if h : l.length = n then .value ⟨l.toArray, h⟩ else x

theorem Slot.load_toList {n : Nat} (x : Slot (Bytes n)) (v : Bytes n) : x.load v.toList = .value v :=
  dif_pos v.length_toList

theorem Inputs.hostWrites_pfx (r : Inputs) (j e : Nat) (l : List Byte) :
    r.hostWrites j e (dataWrites 3 .pfx l) = { r with pfx := r.pfx.load l } := by
  by_cases h : l.length = 3
  · simp [dataWrites, Slot.load, h, Inputs.hostWrites, Inputs.hostWrite, writeBytes_fullWrite]
  · simp [dataWrites, Slot.load, h, Inputs.hostWrites]

theorem Inputs.hostWrites_keyIn (r : Inputs) (j e : Nat) (l : List Byte) :
    r.hostWrites j e (dataWrites 32 .keyIn l) = { r with keyIn := r.keyIn.load l } := by
  by_cases h : l.length = 32
  · simp [dataWrites, Slot.load, h, Inputs.hostWrites, Inputs.hostWrite, writeBytes_fullWrite]
  · simp [dataWrites, Slot.load, h, Inputs.hostWrites]

theorem Inputs.hostWrites_idIn (r : Inputs) (j e : Nat) (l : List Byte) :
    r.hostWrites j e (dataWrites 66 .idIn l) = { r with idIn := r.idIn.load l } := by
  by_cases h : l.length = 66
  · simp [dataWrites, Slot.load, h, Inputs.hostWrites, Inputs.hostWrite, writeBytes_fullWrite]
  · simp [dataWrites, Slot.load, h, Inputs.hostWrites]

/-! ### START, COMPLETE and the reads -/

/-- The result of command `o` on a request, as the value that the HOST reads from the command's output register. -/
def Inputs.result (r : Inputs) (o : BitVec 1) (j e : Nat) : Except ErrKind HostValue :=
  if o = 0#1 then (r.runEncode j e).map .idOut else (r.runDecode j e).map .keyOut

/-- What the HOST reads in step 5 of 45_operations R196 after a command with this result, newest first. -/
def readings : Except ErrKind HostValue → List HostValue
  | .ok v => [v, .err 0#3]
  | .error (.invalidEncoding pos) => [.errPos (BitVec.ofNat 6 pos.val), .err 6#3]
  | .error k => [.err (errCode k)]

/-- What a read of command `o`'s output register delivers. -/
def State.outputValue (s : State) (o : BitVec 1) : HostValue :=
  if o = 0#1 then .idOut (s.idOut.read s.freeSource s.freeCount) else .keyOut (s.keyOut.read s.freeSource s.freeCount)

/-- Command `o` has completed with result `x`, and nothing has changed since (45_operations R193). -/
structure State.Shows (s : State) (o : BitVec 1) (x : Except ErrKind HostValue) : Prop where
  busy   : s.busy = false
  done   : s.done = true
  err    : s.err = (statusOf x).1
  errPos : s.errPos = (statusOf x).2
  output : ∀ v, x = .ok v → s.outputValue o = v

/-- COMPLETE shows the result of the request in flight (45_operations R193). -/
theorem State.coreTurn_shows {s : State} {o : BitVec 1} (hb : s.busy = true) (ho : s.req.op = .value o) :
    ∃ t, s.coreTurn = .next t ∧ t.Shows o (s.req.result o s.freeSource s.resetCount) := by
  rw [State.coreTurn_of_op hb ho (decode_opItem o)]
  rcases op_cases o with rfl | rfl
  · rcases execEncode_cases s with ⟨id, hr, e⟩ | ⟨k, hr, e⟩ <;> refine ⟨_, e, ?_⟩ <;> simp only [Inputs.result, hr]
    · exact ⟨rfl, rfl, rfl, rfl, fun v hv => Except.ok.inj hv⟩
    · exact ⟨rfl, rfl, rfl, rfl, fun v hv => nomatch hv⟩
  · rcases execDecode_cases s with ⟨key, hr, e⟩ | ⟨k, hr, e⟩ <;> refine ⟨_, e, ?_⟩ <;> simp only [Inputs.result, hr]
    · exact ⟨rfl, rfl, rfl, rfl, fun v hv => Except.ok.inj hv⟩
    · exact ⟨rfl, rfl, rfl, rfl, fun v hv => nomatch hv⟩

/-- A read of the output register of command `o` delivers its value. -/
theorem State.hostRead_output_hostLog (s : State) (o : BitVec 1) :
    (s.hostRead (if o = 0#1 then .idOut else .keyOut)).hostLog = s.outputValue o :: s.hostLog := by
  rcases op_cases o with rfl | rfl <;> rfl

/-- The last read of a line delivers what the result shows (45_operations R196, step 5). -/
theorem State.Shows.readings_eq {s : State} {o : BitVec 1} {x : Except ErrKind HostValue} (h : s.Shows o x) :
    ((s.logRead (.err s.err)).hostReadResult o).hostLog = readings x ++ s.hostLog := by
  obtain ⟨-, -, herr, hpos, hout⟩ := h
  cases x with
  | ok v =>
    have h0 : (s.logRead (.err s.err)).err = 0#3 := herr
    have hv : (s.logRead (.err s.err)).outputValue o = v := hout v rfl
    rw [State.hostReadResult, if_pos h0, State.hostRead_output_hostLog, hv, State.logRead_hostLog, herr]
    rfl
  | error k =>
    cases k with
    | invalidEncoding pos => simp [State.hostReadResult, State.hostRead, readings, statusOf, errCode, errDatum, herr, hpos]
    | _ => simp [State.hostReadResult, readings, statusOf, errCode, herr]

/-- Steps 4 and 5 of 45_operations R196 once the core has completed. -/
def readTurns (o : BitVec 1) : List Turn := [.host (.read .done), .host (.read .err), .host (.readResult o)]

theorem runTurns_eq (o : BitVec 1) : runTurns o = .host .start :: .core :: readTurns o := rfl

/-- The reads of a line deliver `DONE` and then what the result shows, and leave the core as it is (45_operations R196, steps 4 and 5). -/
theorem State.Shows.runsTo_reads {s : State} {o : BitVec 1} {x : Except ErrKind HostValue} {rest : List Turn} (h : s.Shows o x)
    (hag : s.agenda = readTurns o ++ rest) :
    ∃ t, s.RunsTo (readTurns o) t ∧ t.busy = false ∧ t.done = true ∧
      t.hostLog = readings x ++ .done true :: s.hostLog := by
  let u : State := { s with agenda := rest, hostLog := .done s.done :: s.hostLog }
  have hu : u.Shows o x := ⟨h.busy, h.done, h.err, h.errPos, h.output⟩
  obtain ⟨l, n, ht⟩ := State.hostReadResult_core (u.logRead (.err u.err)) o
  have hlog : l = readings x ++ u.hostLog := by
    rw [← hu.readings_eq, ht]
  refine ⟨(u.logRead (.err u.err)).hostReadResult o, ?_, ?_⟩
  · exact .host hag (State.hostTurn_read _ .done) (.host rfl (State.hostTurn_read _ .err) (.host rfl rfl (.nil _)))
  · rw [ht]
    exact ⟨h.busy, h.done, hlog.trans (by rw [← h.done])⟩

/-- Steps 3 to 5 of 45_operations R196 on an idle core whose inputs are a request of command `o`. -/
theorem State.runsTo_runTurns {s : State} {o : BitVec 1} {rest : List Turn} (hb : s.busy = false) (ho : s.inp.op = .value o)
    (hr : s.inp.readable = true) (hag : s.agenda = runTurns o ++ rest) :
    ∃ t, s.RunsTo (runTurns o) t ∧ t.busy = false ∧ t.done = true ∧
      t.hostLog = readings (s.inp.result o s.freeSource s.resetCount) ++ .done true :: s.hostLog := by
  rw [runTurns_eq] at hag ⊢
  have hstart := State.start_of_readable (s := { s with agenda := .core :: (readTurns o ++ rest) }) hb hr
  obtain ⟨c, hc, hshows⟩ := State.coreTurn_shows (o := o)
    (s := { s with agenda := readTurns o ++ rest, req := s.inp, busy := true, done := false }) rfl ho
  obtain ⟨hcag, hclog, -, -⟩ := State.coreTurn_frame hc
  obtain ⟨t, hreads, hbusy, hdone, hlog⟩ := hshows.runsTo_reads hcag
  exact ⟨t, .host hag hstart (.core rfl hc hreads), hbusy, hdone, by rw [hlog, hclog]⟩

/-! ### A line -/

/-- A line, from any state: the wait, the writes `ws`, and command `o`, once the writes have made the inputs a request of `o`. The HOST has
then read `DONE` and what the result shows (45_operations R196). -/
theorem State.runsTo_line {s : State} {o : BitVec 1} {ws : List HostWrite} {rest : List Turn}
    (hop : (s.inp.hostWrites s.freeSource s.resetCount ws).op = .value o)
    (hr : (s.inp.hostWrites s.freeSource s.resetCount ws).readable = true)
    (hag : s.agenda = .core :: (ws.map writeTurn ++ runTurns o) ++ rest) :
    ∃ t, s.RunsTo (.core :: (ws.map writeTurn ++ runTurns o)) t ∧ t.busy = false ∧ t.done = true ∧
      t.hostLog = readings ((s.inp.hostWrites s.freeSource s.resetCount ws).result o s.freeSource s.resetCount) ++
        .done true :: s.hostLog := by
  obtain ⟨c, hc⟩ := State.coreTurn_goesOn { s with agenda := ws.map writeTurn ++ (runTurns o ++ rest) }
  obtain ⟨hcag, hclog, hcinp, hcsrc⟩ := State.coreTurn_frame hc
  obtain ⟨hcbusy, hcres⟩ := State.coreTurn_ends hc
  have hin : c.inp.hostWrites c.freeSource c.resetCount ws = s.inp.hostWrites s.freeSource s.resetCount ws := by
    rw [hcinp, hcsrc, hcres]
  obtain ⟨k, hwrites⟩ := State.runsTo_writes ws c (runTurns o ++ rest) hcag
  obtain ⟨t, hrun, hbusy, hdone, hlog⟩ := State.runsTo_runTurns (o := o) (rest := rest) (s := { c with
    inp := c.inp.hostWrites c.freeSource c.resetCount ws, idSel := k, agenda := runTurns o ++ rest })
    hcbusy (hin ▸ hop) (hin ▸ hr) rfl
  refine ⟨t, .core (by simpa using hag) hc (hwrites.append hrun), hbusy, hdone, ?_⟩
  rw [hlog, hin, hcsrc, hcres, hclog]

/-- The writes of the line `ENCODE pfx, key`. -/
def encodeWrites (pfx key : List Byte) : List HostWrite :=
  [.op 0#1, .pfxLen pfx.length, .keyLen key.length] ++ dataWrites 3 .pfx pfx ++ dataWrites 32 .keyIn key

theorem lineTurns_encode_eq (pfx key : List Byte) :
    lineTurns (.encode pfx key) = .core :: ((encodeWrites pfx key).map writeTurn ++ runTurns 0#1) := by
  simp [lineTurns, encodeWrites, dataTurns_eq_map, writeTurn]

/-- The input registers after the writes of the line `ENCODE pfx, key`. -/
theorem Inputs.hostWrites_encodeWrites (r : Inputs) (j e : Nat) (pfx key : List Byte) :
    r.hostWrites j e (encodeWrites pfx key) =
      { r with op := .value 0#1, pfxLen := .value (saturate pfx.length), keyLen := .value (saturate key.length),
               pfx := r.pfx.load pfx, keyIn := r.keyIn.load key } := by
  rw [encodeWrites, Inputs.hostWrites_append, Inputs.hostWrites_append, Inputs.hostWrites_keyIn, Inputs.hostWrites_pfx]
  rfl

/-- The writes of the line `DECODE identifier`. -/
def decodeWrites (identifier : List Byte) : List HostWrite :=
  [.op 1#1, .idLen identifier.length] ++ dataWrites 66 .idIn identifier

theorem lineTurns_decode_eq (identifier : List Byte) :
    lineTurns (.decode identifier) = .core :: ((decodeWrites identifier).map writeTurn ++ runTurns 1#1) := by
  simp [lineTurns, decodeWrites, dataTurns_eq_map, writeTurn]

/-- The input registers after the writes of the line `DECODE identifier`. -/
theorem Inputs.hostWrites_decodeWrites (r : Inputs) (j e : Nat) (identifier : List Byte) :
    r.hostWrites j e (decodeWrites identifier) =
      { r with op := .value 1#1, idLen := .value (saturate identifier.length), idIn := r.idIn.load identifier } := by
  rw [decodeWrites, Inputs.hostWrites_append, Inputs.hostWrites_idIn]
  rfl

theorem Slot.load_of_length {n : Nat} (x : Slot (Bytes n)) {l : List Byte} (h : l.length = n) : ∃ v, x.load l = .value v :=
  ⟨_, dif_pos h⟩

/-- After the writes of a line ENCODE the inputs are a request that START accepts, whatever the lengths (10_state R30). -/
theorem Inputs.readable_encodeWrites (r : Inputs) (j e : Nat) (pfx key : List Byte) :
    (r.hostWrites j e (encodeWrites pfx key)).readable = true := by
  rw [Inputs.hostWrites_encodeWrites, readSetsAreShortCircuit]
  refine .inl ⟨rfl, _, rfl, fun h3 => ⟨_, rfl, fun h32 => ⟨?_, ?_⟩⟩⟩
  · exact Slot.load_of_length _ ((saturate_eq_iff (by decide) _).mp h3)
  · exact Slot.load_of_length _ ((saturate_eq_iff (by decide) _).mp h32)

/-- After the writes of a line DECODE the inputs are a request that START accepts, whatever the length (10_state R30). -/
theorem Inputs.readable_decodeWrites (r : Inputs) (j e : Nat) (identifier : List Byte) :
    (r.hostWrites j e (decodeWrites identifier)).readable = true := by
  rw [Inputs.hostWrites_decodeWrites, readSetsAreShortCircuit]
  exact .inr ⟨rfl, _, rfl, fun h66 => Slot.load_of_length _ ((saturate_eq_iff (by decide) _).mp h66)⟩

/-- Settles O44: the line is a run, and its result is that of the lengths and the data written. -/
theorem encodeLineDeliversItsResult : Obligations.EncodeLineDeliversItsResult := by
  intro s pfx key rest hag
  rw [lineTurns_encode_eq] at hag ⊢
  obtain ⟨t, ⟨hrun, htag⟩, hbusy, hdone, hlog⟩ :=
    State.runsTo_line (by rw [Inputs.hostWrites_encodeWrites]) (Inputs.readable_encodeWrites _ _ _ pfx key) hag
  rw [Inputs.hostWrites_encodeWrites] at hlog
  refine ⟨t, hrun, List.append_cancel_left (htag.symm.trans hag), hbusy, hdone, fun hp => ?_, fun hp hk => ?_, fun p k hp hk => ?_⟩
  · have hne : saturate pfx.length ≠ 3 := mt (saturate_eq_iff (by decide) _).mp hp
    rw [hlog, Inputs.result, if_pos rfl, Inputs.runEncode_of_pfxLen rfl hne]
    rfl
  · have hne : saturate key.length ≠ 32 := mt (saturate_eq_iff (by decide) _).mp hk
    rw [hlog, Inputs.result, if_pos rfl, Inputs.runEncode_of_keyLen (by rw [hp]; rfl) rfl hne]
    rfl
  · subst hp hk
    rw [hlog, Inputs.result, if_pos rfl, Inputs.runEncode_of_encodeRequest (pfx := p) (key := k)]
    · rfl
    · exact ⟨by simp [saturate], by simp [saturate], Slot.load_toList _ p, Slot.load_toList _ k⟩

/-- Settles O45: the line is a run, and its result is that of the length and the bytes written. -/
theorem decodeLineDeliversItsResult : Obligations.DecodeLineDeliversItsResult := by
  intro s identifier rest hag
  rw [lineTurns_decode_eq] at hag ⊢
  obtain ⟨t, ⟨hrun, htag⟩, hbusy, hdone, hlog⟩ :=
    State.runsTo_line (by rw [Inputs.hostWrites_decodeWrites]) (Inputs.readable_decodeWrites _ _ _ identifier) hag
  rw [Inputs.hostWrites_decodeWrites] at hlog
  refine ⟨t, hrun, List.append_cancel_left (htag.symm.trans hag), hbusy, hdone, fun hn => ?_, fun id hid => ?_⟩
  · have hne : saturate identifier.length ≠ 66 := mt (saturate_eq_iff (by decide) _).mp hn
    rw [hlog, Inputs.result, if_neg (by decide), Inputs.runDecode_of_idLen rfl hne]
    rfl
  · subst hid
    rw [hlog, Inputs.result, if_neg (by decide), Inputs.runDecode_of_idIn (n := 66) (by simp [saturate]) (Slot.load_toList _ id)]
    cases decodeCmd 66 id with
    | ok k => rfl
    | error k => cases k <;> rfl

/-! ### The round trip -/

theorem noSeparator_upcase3 {p : Bytes 3} (h : noSeparator p) : noSeparator (upcase3 p) := fun i hi =>
  h i ((upcaseByte_eq_separator _).mp ((upcase3_getElem p i.val i.isLt).symm.trans hi))

theorem noSeparator_b32enc (pay : Bytes 35) : noSeparator (b32enc pay) := fun i hi =>
  sym_ne_separator _ ((b32enc_getElem pay i.val i.isLt).symm.trans hi)

theorem upcase3_idem (p : Bytes 3) : upcase3 (upcase3 p) = upcase3 p := by
  ext i hi : 1
  simp [upcaseByte_idem]

/-- B32DEC undoes B32ENC (41_base32 R126). -/
theorem b32dec_b32enc (pay : Bytes 35) : b32dec (b32enc pay) = .ok pay := by
  have hgood : firstBad (b32enc pay) = none := firstBad_eq_none.mpr fun i => ⟨payGroup pay i, by simp⟩
  have hbits : charsToBytes (b32enc pay) = pay :=
    payload_ext_bits fun k => (payBit_charsToBytes _ k).trans (charBit_b32enc pay k)
  rw [b32dec, hgood, hbits]

/-- PARSE undoes ASSEMBLE on parts without a separator (42_assembler R142). -/
theorem parse_assemble {p : Bytes 3} {s : Bytes 56} (hp : noSeparator p) (hs : noSeparator s) :
    parse 66 (assemble p s) = .ok { p0 := p, seg := segmentsOf s, s56 := s } :=
  parse_ok_iff.mpr ⟨rfl, rfl, hp, hs⟩

/-- DECODE of an assembled identifier: its payload, put through the checksum test with `p` (45_operations R191). -/
theorem decodeCmd_assemble_b32enc {p : Bytes 3} (hp : noSeparator p) (pay : Bytes 35) :
    decodeCmd 66 (assemble p (b32enc pay)) = verifyPayload p pay := by
  have ht := parse_assemble hp (noSeparator_b32enc pay)
  rw [decodeCmd_of_b32dec_eq_ok ht (b32dec_b32enc pay)]

/-- DECODE undoes ENCODE for a `PFX` without a separator byte (45_operations R197). -/
theorem decodeCmd_encodeKey {p : Bytes 3} (hp : noSeparator p) (k : Bytes 32) : decodeCmd 66 (encodeKey p k) = .ok k := by
  rw [encodeKey, decodeCmd_assemble_b32enc (noSeparator_upcase3 hp), verifyPayload_eq_ite, payloadChecksum_payload,
    payloadKey_payload, upcase3_idem, if_pos rfl]

/-- Settles O46: the two lines one after the other, and DECODE undoes ENCODE. -/
theorem machineRoundTrip : Obligations.MachineRoundTrip := by
  intro s p k rest hp hag
  obtain ⟨t, hrun, htag, -, -, -, -, hlog⟩ := encodeLineDeliversItsResult s p.toList k.toList _ hag
  obtain ⟨u, hrun', huag, -, -, -, hlog'⟩ := decodeLineDeliversItsResult t (encodeKey p k).toList rest htag
  refine ⟨(lineTurns (.encode p.toList k.toList)).length + (lineTurns (.decode (encodeKey p k).toList)).length, u, ?_, huag, ?_⟩
  · rw [advanceN_add, hrun, hrun']
  · rw [hlog' _ rfl, decodeCmd_encodeKey hp, hlog p k rfl rfl]

end Sys2Proof.Machine

/-! PROOFS. How an operation ends and what it cannot do: errors are outcomes of a COMPLETE that always comes, only a START on an unwritten
register has no meaning, and cores do not see each other (spec/60_exceptions.md). -/

namespace Sys2Proof.Machine

open Sys2Proof

/-! ### Every COMPLETE goes on -/

/-- A register that holds a value is read as that value (10_state R29). -/
theorem Slot.getD_of_value {α : Type} {x : Slot α} {v : α} (h : x = .value v) (d : α) : x.getD d = v := by
  rw [h, Slot.getD_value]

/-- Settles O13: the operands are what the request's registers contain, and the command's result on them gives the whole next state. -/
theorem commandsCompleteOnEveryRequest : Obligations.CommandsCompleteOnEveryRequest := by
  constructor
  · intro s
    refine ⟨s.req.pfxLen.getD (unwrittenLen s.freeSource s.resetCount 0), s.req.pfxBytes s.freeSource s.resetCount,
      s.req.keyLen.getD (unwrittenLen s.freeSource s.resetCount 1), s.req.keyBytes s.freeSource s.resetCount,
      fun _ h => Slot.getD_of_value h _, fun _ h => Inputs.pfxBytes_of_value h _ _,
      fun _ h => Slot.getD_of_value h _, fun _ h => Inputs.keyBytes_of_value h _ _, ?_⟩
    rw [← Inputs.runEncode]
    cases h : s.req.runEncode s.freeSource s.resetCount with
    | ok id => exact execEncode_of_ok h
    | error k => exact execEncode_of_error h
  · intro s
    refine ⟨s.req.idLen.getD (unwrittenLen s.freeSource s.resetCount 2), s.req.idBytes s.freeSource s.resetCount,
      fun _ h => Slot.getD_of_value h _, fun _ h => Inputs.idBytes_of_value h _ _, ?_⟩
    rw [← Inputs.runDecode]
    cases h : s.req.runDecode s.freeSource s.resetCount with
    | ok key => exact execDecode_of_ok h
    | error k => exact execDecode_of_error h

/-- Settles O40: the core's turn always goes on, and so does every action of the HOST but a START of an idle core, which samples a
readable request or is refused. -/
theorem onlyAnUnwrittenStartIsRefused : Obligations.OnlyAnUnwrittenStartIsRefused := by
  intro s
  rcases s.isTurn_cases with hc | ⟨a, ha⟩
  · rw [step_of_isCoreTurn hc]
    exact .inl s.popTurn.coreTurn_goesOn
  · have hstep := step_of_isHostTurn ha
    rcases s.popTurn.hostTurn_cases a with ⟨_, e⟩ | ⟨rfl, hb, _⟩ | ⟨_, _, e⟩ | ⟨_, _, e⟩
    · exact .inl ⟨_, hstep.trans e⟩
    · have hidle : s.busy = false := hb
      rcases step_start_cases hidle ha with ⟨_, t, ht, _⟩ | ⟨hr, e⟩
      · exact .inl ⟨t, ht⟩
      · exact .inr ⟨ha, hidle, hr, e⟩
    · exact .inl ⟨_, hstep.trans e⟩
    · exact .inl ⟨_, hstep.trans e⟩

/-! ### The checksum decides -/

/-- Settles O37: the assembled identifier decodes to its payload, whose checksum bytes are compared with the recomputed ones. -/
theorem everyChecksumChangeIsDetected : Obligations.EveryChecksumChangeIsDetected := by
  intro p k cs hp
  rw [decodeCmd_assemble_b32enc hp, verifyPayload_eq_ite, payloadChecksum_payload, payloadKey_payload]
  exact ⟨fun h => if_pos h, fun h => if_neg h⟩

/-! ### Several cores -/

theorem System.getElem?_stepAt_self (y : System) (k : Nat) : (y.stepAt k)[k]? = (y[k]?).map advance := by
  simp [System.stepAt]

theorem System.getElem?_stepAt_of_ne (y : System) {j k : Nat} (h : j ≠ k) : (y.stepAt j)[k]? = y[k]? := by
  simp [System.stepAt, h]

/-- Settles O43: by induction on the schedule; a step of another core leaves core `k` alone, and one of its own is counted. -/
theorem coresAreIsolated : Obligations.CoresAreIsolated := by
  intro y sched k
  induction sched generalizing y with
  | nil => exact (congrFun Option.map_id y[k]?).symm
  | cons j js ih =>
    rw [System.run, ih]
    by_cases h : j = k
    · subst h
      rw [y.getElem?_stepAt_self, Option.map_map, List.count_cons_self]
      rfl
    · rw [y.getElem?_stepAt_of_ne h, List.count_cons_of_ne h]

end Sys2Proof.Machine

/-! PROOFS. RESET abandons an operation, and without a RESET every operation comes to its end (spec/70_reset_and_hazards.md). -/

namespace Sys2Proof.Machine

open Sys2Proof

/-- Settles O8: after RESET the core is idle, so its turn does nothing; no other action of the HOST disturbs an operation. -/
theorem onlyResetAbandonsAnOperation : Obligations.OnlyResetAbandonsAnOperation := by
  refine ⟨fun s ha => ⟨s.popTurn.hostReset, step_of_isHostTurn ha, fun rest => ?_⟩, fun s a hb ha hne => ?_⟩
  · have hidle : s.popTurn.hostReset.busy = false := (State.asAfterReset_hostReset _).busy
    rw [step_of_isCoreTurn (.inr ⟨rest, rfl⟩)]
    exact State.coreTurn_of_idle hidle
  · obtain ⟨t, ht, hreq, hbusy, -⟩ := theHostCannotDisturbAnOperation s a hb ha hne
    exact ⟨t, ht, hbusy, hreq⟩

/-- The turn of a busy core is COMPLETE (45_operations R193). -/
theorem State.coreTurn_completes {s : State} (hb : s.busy = true) :
    ∃ t, s.coreTurn = .next t ∧ t.done = true ∧ t.busy = false := by
  rcases s.coreTurn_cases with ⟨hidle, _⟩ | ⟨_, _, e⟩ | ⟨_, _, e⟩
  · exact absurd (hb.symm.trans hidle) (by decide)
  · rcases execEncode_cases s with ⟨_, _, e'⟩ | ⟨_, _, e'⟩ <;> exact ⟨_, e.trans e', rfl, rfl⟩
  · rcases execDecode_cases s with ⟨_, _, e'⟩ | ⟨_, _, e'⟩ <;> exact ⟨_, e.trans e', rfl, rfl⟩

/-- An operation in flight whose next turn is the core's has completed one step later. -/
theorem State.completes_of_isCoreTurn {s : State} (hb : s.busy = true) (hc : s.isCoreTurn) :
    ∃ t, advanceN 1 (.next s) = .next t ∧ t.done = true ∧ t.busy = false := by
  obtain ⟨t, ht, hend⟩ := State.coreTurn_completes (s := s.popTurn) hb
  exact ⟨t, (step_of_isCoreTurn hc).trans ht, hend⟩

/-- A turn of the HOST that is no RESET leaves an operation in flight, with one turn less to come. -/
theorem step_host_keeps_busy {s : State} {a : HostAction} {rest : List Turn} (hb : s.busy = true)
    (hag : s.agenda = .host a :: rest) (hne : a ≠ .reset) : ∃ t, step s = .next t ∧ t.busy = true ∧ t.agenda = rest := by
  obtain ⟨t, ht, -, hbusy, -⟩ := theHostCannotDisturbAnOperation s a hb ⟨rest, hag⟩ hne
  have hturn : s.popTurn.hostTurn a = .next t := (step_of_isHostTurn ⟨rest, hag⟩).symm.trans ht
  exact ⟨t, ht, hbusy, (State.hostTurn_agenda hturn).trans (congrArg List.tail hag)⟩

/-- Settles O41: by induction on the turns to come; the core's turn completes, and a turn of the HOST leaves one turn less. -/
theorem anOperationInFlightCompletes : Obligations.AnOperationInFlightCompletes := by
  intro s hb hnr
  generalize hag : s.agenda = ts at hnr ⊢
  induction ts generalizing s with
  | nil =>
    obtain ⟨t, ht, hend⟩ := State.completes_of_isCoreTurn hb (.inl hag)
    exact ⟨1, t, Nat.le_add_left _ _, ht, hend⟩
  | cons x rest ih =>
    cases x with
    | core =>
      obtain ⟨t, ht, hend⟩ := State.completes_of_isCoreTurn hb (.inr ⟨rest, hag⟩)
      exact ⟨1, t, Nat.le_add_left _ _, ht, hend⟩
    | host a =>
      obtain ⟨hturn, hrest⟩ := List.forall_mem_cons.mp hnr
      have hne : a ≠ .reset := by
        rintro rfl
        cases hturn
      obtain ⟨u, hu, hbu, hagu⟩ := step_host_keeps_busy hb hag hne
      obtain ⟨k, t, hk, hrun, hend⟩ := ih u hbu hagu hrest
      have hrun' : advanceN (k + 1) (.next s) = .next t := (congrArg (advanceN k) hu).trans hrun
      exact ⟨k + 1, t, Nat.succ_le_succ hk, hrun', hend⟩

end Sys2Proof.Machine

/-! PROOFS. The base32 units: their inverse laws, and which bytes and characters share bits (spec/41_base32.md R126, R127). -/

namespace Sys2Proof.Machine

open Sys2Proof

/-! ### The inverse laws -/

/-- The groups of the bytes that a text carries are the values of its characters (41_base32 R120, R121). -/
theorem payGroup_charsToBytes (s : Bytes 56) (i : Fin 56) : payGroup (charsToBytes s) i = charValue s i := by
  refine BitVec.eq_of_getMsbD_eq fun t ht => ?_
  have hchar : (5 * i.val + t) / 5 = i.val := by omega
  have hbit : (5 * i.val + t) % 5 = t := by omega
  rw [payGroup_getMsbD _ _ _ ht, payBit_charsToBytes]
  simp only [charBit, hchar, hbit]

/-- A text in the alphabet is the encoding of the bytes it carries (41_base32 R126). -/
theorem b32enc_charsToBytes {s : Bytes 56} (h : ∀ i : Fin 56, ∃ v, val s[i] = some v) : b32enc (charsToBytes s) = s := by
  ext i hi : 1
  obtain ⟨v, hv⟩ : ∃ v, val s[i] = some v := h ⟨i, hi⟩
  have hvalue : charValue s ⟨i, hi⟩ = v := by simp only [charValue, Fin.getElem_fin, hv, Option.getD_some]
  rw [b32enc_getElem, payGroup_charsToBytes, hvalue, sym_of_val hv]

theorem b32dec_eq_error_iff {s : Bytes 56} {i : Fin 56} : b32dec s = .error i ↔ firstBad s = some i := by
  unfold b32dec
  cases firstBad s <;> simp

/-- B32DEC succeeds on the encoder's texts alone, and undoes B32ENC on them (41_base32 R126). -/
theorem b32dec_eq_ok_iff {s : Bytes 56} {p : Bytes 35} : b32dec s = .ok p ↔ b32enc p = s := by
  constructor
  · intro h
    cases hbad : firstBad s with
    | some i => cases (b32dec_eq_error_iff.mpr hbad).symm.trans h
    | none =>
      have hdec : b32dec s = .ok (charsToBytes s) := by simp only [b32dec, hbad]
      rw [← Except.ok.inj (hdec.symm.trans h)]
      exact b32enc_charsToBytes (firstBad_eq_none.mp hbad)
  · rintro rfl
    exact b32dec_b32enc p

/-! ### Locality -/

/-- Byte `b` of the payload and character `c` of the text have a bit of the 280-bit string in common (41_base32 R120). -/
def ShareBit (b c : Nat) : Prop := 8 * b < 5 * c + 5 ∧ 5 * c < 8 * b + 8

/-- A character depends only on the bytes with which it shares a bit. -/
theorem b32enc_getElem_congr {p q : Bytes 35} {c : Nat} (hc : c < 56) (h : ∀ b : Fin 35, ShareBit b.val c → p[b] = q[b]) :
    (b32enc p)[c] = (b32enc q)[c] := by
  rw [b32enc_getElem, b32enc_getElem]
  refine congrArg sym (BitVec.eq_of_getMsbD_eq fun t ht => ?_)
  have hbyte := h ⟨(5 * c + t) / 8, by omega⟩ ⟨by dsimp only; omega, by dsimp only; omega⟩
  rw [payGroup_getMsbD _ _ _ ht, payGroup_getMsbD _ _ _ ht]
  exact congrArg (BitVec.getMsbD · ((5 * c + t) % 8)) hbyte

/-- A byte depends only on the characters with which it shares a bit. -/
theorem charsToBytes_getElem_congr {s u : Bytes 56} {b : Nat} (hb : b < 35)
    (h : ∀ c : Fin 56, ShareBit b c.val → s[c] = u[c]) : (charsToBytes s)[b] = (charsToBytes u)[b] := by
  refine BitVec.eq_of_getMsbD_eq fun t ht => ?_
  have hchar := h ⟨(8 * b + t) / 5, by omega⟩ ⟨by dsimp only; omega, by dsimp only; omega⟩
  rw [charsToBytes_getElem_getMsbD _ _ _ _ ht, charsToBytes_getElem_getMsbD _ _ _ _ ht]
  exact congrArg (fun x : Byte => ((val x).getD 0#5).getMsbD ((8 * b + t) % 5)) hchar

/-- Payloads of one key differ in the checksum bytes alone (30_encoding R72). -/
theorem payload_getElem_key (key : Bytes 32) (cs : Bytes 3) (k : Nat) (hk : k < 32) : (payload key cs)[k] = key[k] :=
  cat_getElem_left key cs (by omega) k hk

/-! ### The statements -/

/-- Settles O28: on the alphabet a text is the encoding of one payload; the first bad position is the one that B32DEC reports. -/
theorem base32InverseLaws : Obligations.Base32InverseLaws := by
  refine ⟨b32dec_b32enc, fun s hin => ?_, fun s hout => ?_⟩
  · have hs : b32enc (charsToBytes s) = s := b32enc_charsToBytes fun i => Option.ne_none_iff_exists'.mp (hin i)
    have hdec : b32dec s = .ok (charsToBytes s) := b32dec_eq_ok_iff.mpr hs
    exact ⟨_, hdec, hs, fun q hq => Except.ok.inj (hq.symm.trans hdec)⟩
  · cases hbad : firstBad s with
    | none => exact absurd (fun i => Option.ne_none_iff_exists'.mpr (firstBad_eq_none.mp hbad i)) hout
    | some i =>
      obtain ⟨hi, hlt⟩ := firstBad_eq_some.mp hbad
      exact ⟨i, b32dec_eq_error_iff.mpr hbad, hi, fun j hj => Option.ne_none_iff_exists'.mpr (hlt j hj)⟩

/-- Settles O29: each clause is arithmetic on which bytes and characters share a bit. -/
theorem base32Locality : Obligations.Base32Locality := by
  refine ⟨fun p q j h i => ?_, fun s u j h i => ?_, fun p q b h i hne => ?_, fun s u c h b hne => ?_, fun key cs cs' i hne => ?_⟩
  · refine b32enc_getElem_congr _ fun b ⟨hl, hr⟩ => ?_
    have hb : 5 * j.val + (b.val - 5 * j.val) = b.val := by omega
    simpa [hb] using h ⟨b.val - 5 * j.val, by omega⟩
  · refine charsToBytes_getElem_congr _ fun c ⟨hl, hr⟩ => ?_
    have hc : 8 * j.val + (c.val - 8 * j.val) = c.val := by omega
    simpa [hc] using h ⟨c.val - 8 * j.val, by omega⟩
  · by_contra hseg
    refine hne (b32enc_getElem_congr i.isLt fun b' ⟨hl, hr⟩ => h b' ?_)
    rintro rfl
    omega
  · by_contra hfar
    refine hne (charsToBytes_getElem_congr b.isLt fun c' ⟨hl, hr⟩ => h c' ?_)
    rintro rfl
    omega
  · by_contra hlow
    refine hne (b32enc_getElem_congr i.isLt fun b ⟨hl, hr⟩ => ?_)
    have hb : b.val < 32 := by omega
    exact (payload_getElem_key key cs b hb).trans (payload_getElem_key key cs' b hb).symm

end Sys2Proof.Machine

/-! PROOFS. The parser and the assembler, by position (spec/42_assembler.md R142, spec/43_parser.md R157). -/

namespace Sys2Proof.Machine

open Sys2Proof

/-- Every separator position is `3 + 9j` (43_parser R157). -/
theorem eq_of_mem_sepPositions : ∀ i ∈ sepPositions, ∃ j : Fin 7, i = ⟨3 + 9 * j.val, by omega⟩ := by decide

/-- The parts of an identifier that parses, by position (43_parser R157). -/
theorem parts_of_parse_eq_ok {id : Bytes 66} {t : Parsed} (h : parse 66 id = .ok t) :
    t = ⟨prefixSlice id, segmentsOf (payloadSlice id), payloadSlice id⟩ := by
  obtain ⟨hid, hseg, -, -⟩ := parse_ok_iff.mp h
  obtain ⟨p0, seg, s56⟩ := t
  dsimp only at hid hseg
  rw [hid, hseg, prefixSlice_assemble, payloadSlice_assemble]

/-- PARSE succeeds exactly when the separators stand at `Q`, with the parts by position (43_parser R157). -/
theorem parse_eq_ok_iff_by_position {id : Bytes 66} {t : Parsed} :
    parse 66 id = .ok t ↔ sepsInPlace id = true ∧ t = ⟨prefixSlice id, segmentsOf (payloadSlice id), payloadSlice id⟩ := by
  constructor
  · intro h
    exact ⟨(exists_parse_eq_ok_iff id).mp ⟨t, h⟩, parts_of_parse_eq_ok h⟩
  · rintro ⟨hsep, rfl⟩
    obtain ⟨t, ht⟩ := (exists_parse_eq_ok_iff id).mpr hsep
    rw [ht, parts_of_parse_eq_ok ht]

/-! ### The statements -/

/-- Settles O32: the outcome of PARSE by its flags, and each flag by position. -/
theorem parseByPosition : Obligations.ParseByPosition := by
  intro id
  have hfirst := (firstTokenIs3_iff id).trans (first_token_by_position id)
  have hcount : sepCount id = id.toList.countP fun c => c == 0x5F#8 := rfl
  have hplace := sepsInPlace_iff id
  refine ⟨fun t => ?_, ?_⟩
  · rw [parse_eq_ok_iff_by_position, hplace, segments_by_position]
    obtain ⟨p0, seg, s56⟩ := t
    simp only [Parsed.mk.injEq]
    exact and_congr_right fun _ => and_congr_right fun _ => and_comm
  · rw [← hfirst, ← hcount, ← hplace]
    rcases parse_cases 66 id with ⟨hn, -⟩ | ⟨-, hp, e⟩ | ⟨-, hp, hc, e⟩ | ⟨-, hp, hc, hl, e⟩ | ⟨-, hp, hc, hl, t, e⟩
    · exact absurd rfl hn
    · simp [e, hp]
    · simp [e, hp, hc]
    · simp [e, hp, hc, hl]
    · simp [e, hp, hc, hl]

/-- Settles O33: the separators of an assembled identifier, by position, and PARSE on it. -/
theorem assembleAndParseAreInverse : Obligations.AssembleAndParseAreInverse := by
  intro p s
  refine ⟨fun i hi => ?_, fun hp hs => ⟨fun i => (assemble_eq_separator_iff hp hs i).mp, parse_assemble hp hs⟩⟩
  obtain ⟨j, rfl⟩ := eq_of_mem_sepPositions i hi
  exact assemble_getElem_separator p s j j.isLt

end Sys2Proof.Machine

/-! PROOFS. The laws of the commands: the round trip and its converse, and case symmetry (spec/45_operations.md R197, R199). -/

namespace Sys2Proof.Machine

open Sys2Proof

/-! ### The valid identifiers -/

/-- DECODE succeeds exactly on an assembled payload whose checksum is the recomputed one (45_operations R191). -/
theorem decodeCmd_eq_ok_iff {id : Bytes 66} {k : Bytes 32} :
    decodeCmd 66 id = .ok k ↔
      ∃ p0, noSeparator p0 ∧ id = assemble p0 (b32enc (payload k (csum3 (hashInput k (upcase3 p0))))) := by
  constructor
  · intro h
    cases ht : parse 66 id with
    | error e => cases (decodeCmd_of_parse_eq_error ht).symm.trans h
    | ok t =>
      cases hdec : b32dec t.s56 with
      | error i => cases (decodeCmd_of_b32dec_eq_error ht hdec).symm.trans h
      | ok pay =>
        obtain ⟨hid, -, hp, -⟩ := parse_ok_iff.mp ht
        rw [decodeCmd_of_b32dec_eq_ok ht hdec, verifyPayload_eq_ite] at h
        split at h
        · rename_i hcs
          have hkey : payloadKey pay = k := Except.ok.inj h
          exact ⟨t.p0, hp, by rw [← hkey, ← hcs, payload_eta, b32dec_eq_ok_iff.mp hdec, ← hid]⟩
        · cases h
  · rintro ⟨p0, hp, rfl⟩
    exact (everyChecksumChangeIsDetected p0 k _ hp).1 rfl

/-- ENCODE with both lengths right (45_operations R190). -/
theorem encodeCmd_of_lengths (p : Bytes 3) (k : Bytes 32) : encodeCmd 3 p 32 k = .ok (encodeKey p k) := rfl

/-- Settles O35: DECODE undoes ENCODE, and what it accepts is an assembled payload with its own checksum. -/
theorem roundTripAndConverse : Obligations.RoundTripAndConverse :=
  ⟨fun p k hp => ⟨_, encodeCmd_of_lengths p k, decodeCmd_encodeKey hp k⟩, fun _ _ => decodeCmd_eq_ok_iff⟩

/-! ### Case symmetry -/

/-- The case of `PFX` is folded before anything else looks at it (45_operations R190). -/
theorem encodeKey_upcase3 (p : Bytes 3) (k : Bytes 32) : encodeKey (upcase3 p) k = encodeKey p k := by
  simp only [encodeKey, upcase3_idem]

/-- Values of `PFX` that differ in the case of letters alone hold a separator at the same places (42_assembler R140). -/
theorem noSeparator_of_upcase3_eq {p q : Bytes 3} (h : upcase3 p = upcase3 q) (hq : noSeparator q) : noSeparator p := fun i hi => by
  have hfold : upcaseByte p[i] = upcaseByte q[i] := by simpa using congrArg (·[i]) h
  exact hq i ((upcaseByte_eq_separator _).mp (hfold ▸ (upcaseByte_eq_separator _).mpr hi))

/-- An assembled identifier with other bytes in its first three places is assembled with these (42_assembler R141). -/
theorem eq_assemble_prefixSlice {id : Bytes 66} {p : Bytes 3} {s : Bytes 56}
    (h : ∀ i : Fin 66, 3 ≤ i.val → id[i] = (assemble p s)[i]) :
    id = assemble (prefixSlice id) s := by
  refine ext_positions _ _ (fun i => ?_) (fun j => ?_) fun i => ?_
  · simp [assemble_getElem_prefix, prefixSlice]
  · rw [assemble_getElem_separator _ _ _ j.isLt, ← assemble_getElem_separator p s _ j.isLt]
    exact h ⟨3 + 9 * j.val, by omega⟩ (by dsimp only; omega)
  · rw [assemble_getElem_payload _ _ _ i.isLt, ← assemble_getElem_payload p s _ i.isLt]
    exact h ⟨4 + i.val + i.val / 8, by omega⟩ (by dsimp only; omega)

/-- A lowercase letter is outside the alphabet (30_encoding R74). -/
theorem val_lowercase {c : Byte} (hl : 0x41 ≤ c.toNat) (hr : c.toNat ≤ 0x5A) : val (c + 0x20#8) = none := by
  have hc : (c + 0x20#8).toNat = c.toNat + 0x20 := by bv_omega
  rw [val_eq_ite_toNat, if_neg (by omega), if_neg (by omega)]

/-- Turning a letter into lowercase neither makes nor removes a separator. -/
theorem lowercase_eq_separator_iff {c : Byte} (hl : 0x41 ≤ c.toNat) (hr : c.toNat ≤ 0x5A) :
    c + 0x20#8 = Config.separator ↔ c = Config.separator := by
  refine iff_of_false ?_ ?_ <;> bv_omega

/-- A valid identifier's separators are in place, and all its characters are in the alphabet. -/
theorem positions_of_decodeCmd_eq_ok {id : Bytes 66} {k : Bytes 32} (h : decodeCmd 66 id = .ok k) :
    sepsInPlace id = true ∧ ∀ i : Fin 56, ∃ v, val (payloadSlice id)[i] = some v := by
  obtain ⟨p0, hp, rfl⟩ := decodeCmd_eq_ok_iff.mp h
  refine ⟨(sepsInPlace_iff _).mpr (assemble_eq_separator_iff hp (noSeparator_b32enc _)), fun i => ?_⟩
  rw [payloadSlice_assemble, Fin.getElem_fin, b32enc_getElem]
  exact ⟨_, val_sym _⟩

/-- DECODE on separators in place: the first payload character outside the alphabet is reported (41_base32 R122). -/
theorem decodeCmd_of_firstBad_payloadSlice {id : Bytes 66} {c : Fin 56} (hsep : sepsInPlace id = true)
    (hbad : firstBad (payloadSlice id) = some c) : decodeCmd 66 id = .error (.invalidEncoding c) :=
  decodeCmd_of_firstBad_eq_some (parse_eq_ok_iff_by_position.mpr ⟨hsep, rfl⟩) hbad

/-- Settles O36: `PFX` is folded in both commands; a lowercased letter leaves the separators in place and is outside the alphabet. -/
theorem caseSymmetry : Obligations.CaseSymmetry := by
  refine ⟨fun p k => ?_, fun id id' k hok hrest hcase => ?_, fun id id' k c hok hlower hne hbefore => ?_⟩
  · rw [encodeCmd_of_lengths, encodeCmd_of_lengths, encodeKey_upcase3]
  · obtain ⟨p0, hp, rfl⟩ := decodeCmd_eq_ok_iff.mp hok
    have hfold : upcase3 (prefixSlice id') = upcase3 p0 := by
      ext i hi : 1
      simpa [prefixSlice, assemble_getElem_prefix, hi] using hcase ⟨i, by omega⟩ hi
    refine decodeCmd_eq_ok_iff.mpr ⟨prefixSlice id', noSeparator_of_upcase3_eq hfold hp, ?_⟩
    rw [hfold]
    exact eq_assemble_prefixSlice hrest
  · obtain ⟨hsep, hgood⟩ := positions_of_decodeCmd_eq_ok hok
    refine decodeCmd_of_firstBad_payloadSlice ((sepsInPlace_iff _).mpr fun i => ?_) (firstBad_eq_some.mpr ⟨?_, fun j hj => ?_⟩)
    · rw [← (sepsInPlace_iff id).mp hsep i]
      rcases hlower i with h | ⟨-, hl, hr, h⟩ <;> rw [h]
      exact lowercase_eq_separator_iff hl hr
    · have hslice (x : Bytes 66) : (payloadSlice x)[c] = x[(⟨4 + c.val + c.val / 8, by omega⟩ : Fin 66)] := by simp [payloadSlice]
      rw [hslice, hslice] at hne
      rw [hslice]
      rcases hlower ⟨4 + c.val + c.val / 8, by omega⟩ with h | ⟨-, hl, hr, h⟩
      · exact absurd h hne
      · rw [h, val_lowercase hl hr]
    · rw [hbefore j hj]
      exact hgood j

end Sys2Proof.Machine

/-! PROOFS. The outcomes of each command, and requests that reach them (spec/60_exceptions.md R231). -/

namespace Sys2Proof.Machine

open Sys2Proof

/-- Only InvalidEncoding leaves a position (44_compare_errmux R175). -/
theorem statusOf_pos_only {α : Type} (x : Except ErrKind α) (h : (statusOf x).2 ≠ 0#6) : (statusOf x).1 = 6#3 := by
  cases x with
  | ok v => exact absurd rfl h
  | error k => exact errDatum_only k h

/-- The status of ENCODE is 0, 1 or 2 (60_exceptions R231). -/
theorem Inputs.statusOf_runEncode (r : Inputs) (j e : Nat) :
    (statusOf (r.runEncode j e)).1 = 0#3 ∨ (statusOf (r.runEncode j e)).1 = 1#3 ∨ (statusOf (r.runEncode j e)).1 = 2#3 := by
  cases h : r.runEncode j e with
  | ok id => exact .inl rfl
  | error k => exact .inr (Inputs.runEncode_error h)

/-- The status of DECODE is never 2 (60_exceptions R231). -/
theorem Inputs.statusOf_runDecode_ne (r : Inputs) (j e : Nat) : (statusOf (r.runDecode j e)).1 ≠ 2#3 := by
  cases h : r.runDecode j e with
  | ok key => simp [statusOf]
  | error k => exact (Inputs.runDecode_error h).1

/-! ### Requests -/

/-- After reset, with a request of ENCODE in place. -/
def encodeState (np nk : Nat) (p : Bytes 3) (k : Bytes 32) : State :=
  { State.reset with req := { Inputs.empty with pfxLen := .value np, keyLen := .value nk, pfx := .value p, keyIn := .value k } }

/-- After reset, with a request of DECODE in place. -/
def decodeState (n : Nat) (id : Bytes 66) : State :=
  { State.reset with req := { Inputs.empty with idLen := .value n, idIn := .value id } }

/-- Every result of ENCODE is the result of a COMPLETE. -/
theorem exists_encode_status (np nk : Nat) (p : Bytes 3) (k : Bytes 32) :
    ∃ s t : State, exec .encode s = .next t ∧ t.err = (statusOf (encodeCmd np p nk k)).1 := by
  obtain ⟨t, ht, herr, -, -⟩ := execEncode_result (encodeState np nk p k)
  exact ⟨_, t, ht, herr⟩

/-- Every result of DECODE is the result of a COMPLETE. -/
theorem exists_decode_status (n : Nat) (id : Bytes 66) :
    ∃ s t : State, exec .decode s = .next t ∧ t.err = (statusOf (decodeCmd n id)).1 ∧ t.errPos = (statusOf (decodeCmd n id)).2 := by
  obtain ⟨t, ht, herr, hpos, -⟩ := execDecode_result (decodeState n id)
  rw [Inputs.runDecode_of_idIn rfl rfl] at herr hpos
  exact ⟨_, t, ht, herr, hpos⟩

/-! ### Identifiers for the outcomes of DECODE -/

/-- `n` separators in a row from byte 3 on, and zeros elsewhere. -/
def separatorsInARow (n : Nat) : Bytes 66 :=
  Vector.ofFn fun i => if 3 ≤ i.val ∧ i.val < 3 + n then Config.separator else 0#8

/-- With no separator the first token is too long. -/
theorem parse_separatorsInARow_zero : parse 66 (separatorsInARow 0) = .error .invalidPrefixLength :=
  (parseByPosition _).2.1.mpr (by decide)

/-- One separator makes one segment. -/
theorem parse_separatorsInARow_one : parse 66 (separatorsInARow 1) = .error .invalidDataSegmentCount :=
  (parseByPosition _).2.2.1.mpr (by decide)

/-- Seven separators in a row make seven segments, six of them empty. -/
theorem parse_separatorsInARow_seven : parse 66 (separatorsInARow 7) = .error .invalidDataSegmentLength :=
  (parseByPosition _).2.2.2.mpr (by decide)

/-- Three zeros: a `PFX` without a separator byte. -/
def zeroPrefix : Bytes 3 := Vector.replicate 3 0#8

theorem noSeparator_zeroPrefix : noSeparator zeroPrefix := fun i => by simp [zeroPrefix, Config.separator]

/-- A text whose one character outside the alphabet is a zero at position `c`. -/
theorem firstBad_set_zero (pay : Bytes 35) (c : Fin 56) : firstBad ((b32enc pay).set c.val 0#8) = some c := by
  refine firstBad_eq_some.mpr ⟨?_, fun j hj => ?_⟩
  · simp [val]
  · have hne : c.val ≠ j.val := by omega
    simp [hne]

theorem noSeparator_set {n : Nat} {v : Bytes n} {b : Byte} (hv : noSeparator v) (hb : b ≠ Config.separator) (c : Fin n) :
    noSeparator (v.set c.val b) := fun i => by
  rw [Fin.getElem_fin, Vector.getElem_set]
  split
  · exact hb
  · exact hv i

/-- DECODE reports a zero character at each of the 56 positions. -/
theorem exists_decodeCmd_eq_invalidEncoding (c : Fin 56) : ∃ id, decodeCmd 66 id = .error (.invalidEncoding c) := by
  have hs := noSeparator_set (noSeparator_b32enc (Vector.replicate 35 0#8)) (b := 0#8) (by decide) c
  exact ⟨_, decodeCmd_of_firstBad_eq_some (parse_assemble noSeparator_zeroPrefix hs) (firstBad_set_zero _ c)⟩

/-- DECODE rejects a checksum that is not the key's. -/
theorem exists_decodeCmd_eq_checksumMismatch : ∃ id, decodeCmd 66 id = .error .checksumMismatch := by
  let cs := csum3 (hashInput (Vector.replicate 32 0#8) (upcase3 zeroPrefix))
  have hbyte : cs[0] + 1#8 ≠ cs[0] := by bv_omega
  have hcs : cs.set 0 (cs[0] + 1#8) ≠ cs := fun h => hbyte (by simpa using congrArg (·[0]) h)
  exact ⟨_, (everyChecksumChangeIsDetected _ _ _ noSeparator_zeroPrefix).2 hcs⟩

/-- Every status but 2 is that of a result of DECODE. -/
theorem exists_statusOf_decodeCmd_eq {c : BitVec 3} (hc : c ≠ 2#3) : ∃ n id, (statusOf (decodeCmd n id)).1 = c := by
  have hcases : c = 0#3 ∨ c = 1#3 ∨ c = 3#3 ∨ c = 4#3 ∨ c = 5#3 ∨ c = 6#3 ∨ c = 7#3 := by
    revert c
    decide
  rcases hcases with rfl | rfl | rfl | rfl | rfl | rfl | rfl
  · exact ⟨66, _, by rw [decodeCmd_encodeKey noSeparator_zeroPrefix (Vector.replicate 32 0#8)]; rfl⟩
  · exact ⟨66, _, by rw [decodeCmd_of_parse_eq_error parse_separatorsInARow_zero]; rfl⟩
  · exact ⟨0, separatorsInARow 0, rfl⟩
  · exact ⟨66, _, by rw [decodeCmd_of_parse_eq_error parse_separatorsInARow_one]; rfl⟩
  · exact ⟨66, _, by rw [decodeCmd_of_parse_eq_error parse_separatorsInARow_seven]; rfl⟩
  · obtain ⟨id, hid⟩ := exists_decodeCmd_eq_invalidEncoding 0
    exact ⟨66, id, by rw [hid]; rfl⟩
  · obtain ⟨id, hid⟩ := exists_decodeCmd_eq_checksumMismatch
    exact ⟨66, id, by rw [hid]; rfl⟩

/-- Settles O14: the status of a COMPLETE is that of the command's result; each outcome has a request. -/
theorem outcomeTable : Obligations.OutcomeTable := by
  refine ⟨fun s t h => ?_, fun s t h => ?_, fun s t h hpos => ?_, fun c hc => ?_, fun c hc => ?_, fun pos => ?_⟩
  · obtain ⟨u, hu, herr, -, -⟩ := execEncode_result s
    cases hu.symm.trans h
    rw [herr]
    exact Inputs.statusOf_runEncode _ _ _
  · obtain ⟨u, hu, herr, -, -⟩ := execDecode_result s
    cases hu.symm.trans h
    rw [herr]
    exact Inputs.statusOf_runDecode_ne _ _ _
  · rcases h with h | h
    · obtain ⟨u, hu, herr, hp, -⟩ := execEncode_result s
      cases hu.symm.trans h
      rw [herr]
      exact statusOf_pos_only _ (hp ▸ hpos)
    · obtain ⟨u, hu, herr, hp, -⟩ := execDecode_result s
      cases hu.symm.trans h
      rw [herr]
      exact statusOf_pos_only _ (hp ▸ hpos)
  · rcases hc with rfl | rfl | rfl
    · exact exists_encode_status 3 32 zeroPrefix (Vector.replicate 32 0#8)
    · exact exists_encode_status 0 32 zeroPrefix (Vector.replicate 32 0#8)
    · exact exists_encode_status 3 0 zeroPrefix (Vector.replicate 32 0#8)
  · obtain ⟨n, id, hid⟩ := exists_statusOf_decodeCmd_eq hc
    obtain ⟨s, t, h, herr, -⟩ := exists_decode_status n id
    exact ⟨s, t, h, herr.trans hid⟩
  · obtain ⟨id, hid⟩ := exists_decodeCmd_eq_invalidEncoding pos
    obtain ⟨s, t, h, herr, hpos⟩ := exists_decode_status 66 id
    rw [hid] at herr hpos
    exact ⟨s, t, h, herr, hpos ▸ errDatum_invalidEncoding_toNat pos⟩

end Sys2Proof.Machine

/-! PROOFS. What persists across each step (spec/70_reset_and_hazards.md R252). -/

namespace Sys2Proof.Machine

open Sys2Proof

/-- ENCODE leaves the inputs and `KEY_OUT` as they are (45_operations R193). -/
theorem execEncode_frame {s t : State} (h : execEncode s = .next t) : t.inp = s.inp ∧ t.keyOut = s.keyOut := by
  rcases execEncode_cases s with ⟨_, _, e⟩ | ⟨_, _, e⟩ <;> cases e.symm.trans h <;> exact ⟨rfl, rfl⟩

/-- DECODE leaves the inputs and `ID_OUT` as they are (45_operations R193). -/
theorem execDecode_frame {s t : State} (h : execDecode s = .next t) : t.inp = s.inp ∧ t.idOut = s.idOut := by
  rcases execDecode_cases s with ⟨_, _, e⟩ | ⟨_, _, e⟩ <;> cases e.symm.trans h <;> exact ⟨rfl, rfl⟩

/-- START leaves everything but `REQ`, `BUSY` and `DONE` as it is (45_operations R192). -/
theorem State.start_frame {s t : State} (h : s.start = .next t) :
    t.inp = s.inp ∧ t.err = s.err ∧ t.errPos = s.errPos ∧ t.idOut = s.idOut ∧ t.keyOut = s.keyOut := by
  rcases s.start_cases with ⟨_, e⟩ | ⟨_, _, e⟩ | ⟨_, _, e⟩ <;> cases e.symm.trans h <;> exact ⟨rfl, rfl, rfl, rfl, rfl⟩

/-- A data register that holds a value holds one after a write, with the bytes that are not written (45_operations R194). -/
theorem writeBytes_keeps {n : Nat} {r : Slot (Bytes n)} {old v : Bytes n} (hr : r = .value v) (hold : old = v)
    (m : Vector (Option Byte) n) : ∃ v', writeBytes r old m = .value v' ∧ ∀ i : Fin n, m[i] = none → v'[i] = v[i] := by
  subst hr hold
  unfold writeBytes
  split
  · exact ⟨_, rfl, fun i hi => by simp [show m[i.val] = none from hi]⟩
  · exact ⟨old, rfl, fun _ _ => rfl⟩

/-- The write of one character keeps the other bytes of `ID_IN` (45_operations R194). -/
theorem set_keeps {n : Nat} {old v : Bytes n} (hold : old = v) (k : Fin n) (c : Byte) :
    ∀ i : Fin n, i ≠ k → (old.set k.val c)[i] = v[i] := fun i hi => by
  subst hold
  exact Vector.getElem_set_ne k.isLt i.isLt fun h => hi (Fin.ext h.symm)

/-- Settles O22: the frame of each operation, and byte by byte for the data registers. -/
theorem whatPersistsAcrossEachStep : Obligations.WhatPersistsAcrossEachStep := by
  refine ⟨fun s t => execEncode_frame, fun s t => execDecode_frame, fun s t ha hs => ?_, fun s s' t t' ha ha' hs hs' => ?_,
    fun s t w ha hs => ?_, fun s t p ha hs => ?_, fun s t op ha hs => ?_⟩
  · exact State.start_frame (s := s.popTurn) ((step_of_isHostTurn ha).symm.trans hs)
  · cases (step_of_isHostTurn ha).symm.trans hs
    cases (step_of_isHostTurn ha').symm.trans hs'
    exact ⟨rfl, rfl, rfl, rfl, rfl, rfl, rfl⟩
  · obtain ⟨k, e⟩ := s.popTurn.hostTurn_write w
    cases e.symm.trans ((step_of_isHostTurn ha).symm.trans hs)
    refine ⟨rfl, rfl, rfl, rfl, rfl, rfl, rfl, ?_⟩
    cases w with
    | op v => rfl
    | pfxLen n => rfl
    | keyLen n => rfl
    | idLen n => rfl
    | pfx m => exact ⟨rfl, fun _ hv => writeBytes_keeps hv (Inputs.pfxBytes_of_value hv _ _) m⟩
    | keyIn m => exact ⟨rfl, fun _ hv => writeBytes_keeps hv (Inputs.keyBytes_of_value hv _ _) m⟩
    | idIn m => exact ⟨rfl, fun _ hv => writeBytes_keeps hv (Inputs.idBytes_of_value hv _ _) m⟩
    | idChar i c => exact ⟨rfl, fun _ hv => ⟨_, rfl, set_keeps (Inputs.idBytes_of_value hv _ _) i c⟩⟩
  · obtain ⟨v, k, e⟩ := s.popTurn.hostRead_core p
    cases (congrArg Host.Outcome.next e).symm.trans ((State.hostTurn_read _ p).symm.trans ((step_of_isHostTurn ha).symm.trans hs))
    exact ⟨rfl, rfl, rfl, rfl, rfl, rfl, rfl, rfl⟩
  · obtain ⟨l, k, e⟩ := s.popTurn.hostReadResult_core op
    cases (congrArg Host.Outcome.next e).symm.trans ((step_of_isHostTurn ha).symm.trans hs)
    exact ⟨rfl, rfl, rfl, rfl, rfl, rfl, rfl, rfl⟩

end Sys2Proof.Machine
